-- ==== Sys2Proof/Word.lean ====
section
/-! DEFINITION. The word types of the hardware (spec/00_scope.md R5, R8; spec/30_encoding.md R61).
All quantities are unsigned; every operation on these types wraps at the width of the type. -/

namespace Sys2Proof

/-- 8 bits: a general register, a timer, a byte of memory, the immediate `NN`. -/
abbrev Byte := BitVec 8

/-- 16 bits: an instruction word, `PC`, `I`, a stack entry. -/
abbrev Word := BitVec 16

/-- "a 4-bit field of an instruction word" (R9): a register selector `X` or `Y`, the row count `N`. -/
abbrev Nibble := BitVec 4

/-- 12 bits: the immediate address `NNN` (R61). -/
abbrev Addr := BitVec 12

end Sys2Proof
end

