-- ==== Sys2Proof/Syntax.lean ====
section
/-! DEFINITION. The instruction set as syntax: one constructor per row of spec/opcode_table.json
(spec/30_encoding.md R65, R66). A constructor's arguments are the fields of the word (R61). Fields that
the instruction ignores (R68) are kept too, under the names `x'`, `y'`, `n'` in the docstrings, so that
no bit of a word is lost between decoding and encoding (log entry 25); no meaning reads them. -/

namespace Sys2Proof

inductive Instr where
  /-- Row 1, `CLS`, pattern `0_E0`; `x'` is ignored (R150). -/
  | cls (x' : Nibble)
  /-- Row 2, `RET`, pattern `0_EE`; `x'` is ignored (R101). -/
  | ret (x' : Nibble)
  /-- Row 3, `JP addr`, pattern `1NNN` (R102). -/
  | jp (nnn : Addr)
  /-- Row 4, `CALL addr`, pattern `2NNN` (R103). -/
  | call (nnn : Addr)
  /-- Row 5, `SE Vx, byte`, pattern `3XNN` (R105). -/
  | seImm (x : Nibble) (nn : Byte)
  /-- Row 6, `SNE Vx, byte`, pattern `4XNN` (R106). -/
  | sneImm (x : Nibble) (nn : Byte)
  /-- Row 7, `SE Vx, Vy`, pattern `5XY_`; `n'` is ignored (R107). -/
  | seReg (x y : Nibble) (n' : Nibble)
  /-- Row 8, `LD Vx, byte`, pattern `6XNN` (R120). -/
  | ldImm (x : Nibble) (nn : Byte)
  /-- Row 9, `ADD Vx, byte`, pattern `7XNN` (R121). -/
  | addImm (x : Nibble) (nn : Byte)
  /-- Row 10, `LD Vx, Vy`, pattern `8XY0` (R122). -/
  | ldReg (x y : Nibble)
  /-- Row 11, `OR Vx, Vy`, pattern `8XY1` (R123). -/
  | orReg (x y : Nibble)
  /-- Row 12, `AND Vx, Vy`, pattern `8XY2` (R124). -/
  | andReg (x y : Nibble)
  /-- Row 13, `XOR Vx, Vy`, pattern `8XY3` (R125). -/
  | xorReg (x y : Nibble)
  /-- Row 14, `ADD Vx, Vy`, pattern `8XY4` (R126). -/
  | addReg (x y : Nibble)
  /-- Row 15, `SUB Vx, Vy`, pattern `8XY5` (R127). -/
  | subReg (x y : Nibble)
  /-- Row 16, `SHR Vx`, pattern `8X_6`; `y'` is ignored (R128). -/
  | shr (x : Nibble) (y' : Nibble)
  /-- Row 17, `SUBN Vx, Vy`, pattern `8XY7` (R129). -/
  | subnReg (x y : Nibble)
  /-- Row 18, `SHL Vx`, pattern `8X_E`; `y'` is ignored (R130). -/
  | shl (x : Nibble) (y' : Nibble)
  /-- Row 19, `SNE Vx, Vy`, pattern `9XY_`; `n'` is ignored (R108). -/
  | sneReg (x y : Nibble) (n' : Nibble)
  /-- Row 20, `LD I, addr`, pattern `ANNN` (R140). -/
  | ldI (nnn : Addr)
  /-- Row 21, `JP V0, addr`, pattern `BNNN` (R104). -/
  | jpV0 (nnn : Addr)
  /-- Row 22, `RND Vx, byte`, pattern `CXNN` (R131). -/
  | rnd (x : Nibble) (nn : Byte)
  /-- Row 23, `DRW Vx, Vy, N`, pattern `DXYN` (R151). -/
  | drw (x y n : Nibble)
  /-- Row 24, `SKP Vx`, pattern `EX9E` (R160). -/
  | skp (x : Nibble)
  /-- Row 25, `SKNP Vx`, pattern `EXA1` (R161). -/
  | sknp (x : Nibble)
  /-- Row 26, `LD Vx, DT`, pattern `FX07` (R164). -/
  | ldVxDt (x : Nibble)
  /-- Row 27, `LD Vx, K`, pattern `FX0A` (R162). -/
  | ldVxK (x : Nibble)
  /-- Row 28, `LD DT, Vx`, pattern `FX15` (R165). -/
  | ldDtVx (x : Nibble)
  /-- Row 29, `LD ST, Vx`, pattern `FX18` (R166). -/
  | ldStVx (x : Nibble)
  /-- Row 30, `ADD I, Vx`, pattern `FX1E` (R141). -/
  | addI (x : Nibble)
  /-- Row 31, `LD F, Vx`, pattern `FX29` (R142). -/
  | ldF (x : Nibble)
  /-- Row 32, `LD B, Vx`, pattern `FX33` (R143). -/
  | ldB (x : Nibble)
  /-- Row 33, `LD [I], Vx`, pattern `FX55` (R144). -/
  | ldMemVx (x : Nibble)
  /-- Row 34, `LD Vx, [I]`, pattern `FX65` (R145). -/
  | ldVxMem (x : Nibble)
  /-- Row 35, `NOP`: any word that matches no row above, kept whole as `w` (R67, R100). -/
  | nop (w : Word)
deriving DecidableEq, Repr

end Sys2Proof
end

