-- ==== Sys2Proof/Decode.lean ====
section
/-! DEFINITION. The decoder and the encoder (spec/30_encoding.md). `decodeWord` is the dispatcher
`GetOp` as R63 and R64 describe it: the top nibble selects a family, and families `0`, `8`, `E`, `F`
have a second selector. `opcodeRows` is the mask and match table of R65. The numeric opcode values are
the spec's own presumption (spec/93_implementation_defined.md G1; log entry 4), the granularity of the
selectors its decision D3 (log entry 5). -/

namespace Sys2Proof

/-! ## Fields of a word (R61) -/

/-- `T = opcode[15:12]`, the family selector. -/
def fieldT (w : Word) : Nibble := w.extractLsb' 12 4
/-- `X = opcode[11:8]`. -/
def fieldX (w : Word) : Nibble := w.extractLsb' 8 4
/-- `Y = opcode[7:4]`. -/
def fieldY (w : Word) : Nibble := w.extractLsb' 4 4
/-- `N = opcode[3:0]`. -/
def fieldN (w : Word) : Nibble := w.extractLsb' 0 4
/-- `NN = opcode[7:0]`. -/
def fieldNN (w : Word) : Byte := w.extractLsb' 0 8
/-- `NNN = opcode[11:0]`. -/
def fieldNNN (w : Word) : Addr := w.extractLsb' 0 12

/-- `{hi8, lo8}` (R8): the word whose high byte is `hi`. -/
def wordOfBytes (hi lo : Byte) : Word := hi ++ lo
/-- The byte at the lower address, `{T, X}` (R43, R61). -/
def highByte (w : Word) : Byte := w.extractLsb' 8 8
/-- The byte at the higher address, `NN` (R43, R61). -/
def lowByte (w : Word) : Byte := w.extractLsb' 0 8

/-! ## The dispatcher -/

/-- Family `0x0`: selected on the low byte, bits 11:8 ignored (R64). -/
def decodeFamily0 (w : Word) : Instr :=
  if fieldNN w = 0xE0 then .cls (fieldX w)
  else if fieldNN w = 0xEE then .ret (fieldX w)
  else .nop w

/-- Family `0x8`: selected on the low nibble (R64). -/
def decodeFamily8 (w : Word) : Instr :=
  if fieldN w = 0x0 then .ldReg (fieldX w) (fieldY w)
  else if fieldN w = 0x1 then .orReg (fieldX w) (fieldY w)
  else if fieldN w = 0x2 then .andReg (fieldX w) (fieldY w)
  else if fieldN w = 0x3 then .xorReg (fieldX w) (fieldY w)
  else if fieldN w = 0x4 then .addReg (fieldX w) (fieldY w)
  else if fieldN w = 0x5 then .subReg (fieldX w) (fieldY w)
  else if fieldN w = 0x6 then .shr (fieldX w) (fieldY w)
  else if fieldN w = 0x7 then .subnReg (fieldX w) (fieldY w)
  else if fieldN w = 0xE then .shl (fieldX w) (fieldY w)
  else .nop w

/-- Family `0xE`: selected on the low byte (R64). -/
def decodeFamilyE (w : Word) : Instr :=
  if fieldNN w = 0x9E then .skp (fieldX w)
  else if fieldNN w = 0xA1 then .sknp (fieldX w)
  else .nop w

/-- Family `0xF`: selected on the low byte (R64). -/
def decodeFamilyF (w : Word) : Instr :=
  if fieldNN w = 0x07 then .ldVxDt (fieldX w)
  else if fieldNN w = 0x0A then .ldVxK (fieldX w)
  else if fieldNN w = 0x15 then .ldDtVx (fieldX w)
  else if fieldNN w = 0x18 then .ldStVx (fieldX w)
  else if fieldNN w = 0x1E then .addI (fieldX w)
  else if fieldNN w = 0x29 then .ldF (fieldX w)
  else if fieldNN w = 0x33 then .ldB (fieldX w)
  else if fieldNN w = 0x55 then .ldMemVx (fieldX w)
  else if fieldNN w = 0x65 then .ldVxMem (fieldX w)
  else .nop w

/-- `GetOp` (R63, R72, R85): the handler a word selects, with its fields. Total: a word that matches no
row of the table is a no-op (R67). -/
def decodeWord (w : Word) : Instr :=
  if fieldT w = 0x0 then decodeFamily0 w
  else if fieldT w = 0x1 then .jp (fieldNNN w)
  else if fieldT w = 0x2 then .call (fieldNNN w)
  else if fieldT w = 0x3 then .seImm (fieldX w) (fieldNN w)
  else if fieldT w = 0x4 then .sneImm (fieldX w) (fieldNN w)
  else if fieldT w = 0x5 then .seReg (fieldX w) (fieldY w) (fieldN w)
  else if fieldT w = 0x6 then .ldImm (fieldX w) (fieldNN w)
  else if fieldT w = 0x7 then .addImm (fieldX w) (fieldNN w)
  else if fieldT w = 0x8 then decodeFamily8 w
  else if fieldT w = 0x9 then .sneReg (fieldX w) (fieldY w) (fieldN w)
  else if fieldT w = 0xA then .ldI (fieldNNN w)
  else if fieldT w = 0xB then .jpV0 (fieldNNN w)
  else if fieldT w = 0xC then .rnd (fieldX w) (fieldNN w)
  else if fieldT w = 0xD then .drw (fieldX w) (fieldY w) (fieldN w)
  else if fieldT w = 0xE then decodeFamilyE w
  else decodeFamilyF w

/-- The one reason the decoder refuses bytes: no word is illegal (R67), but an instruction is two bytes. -/
inductive DecodeError where
  /-- Fewer than two bytes were given. -/
  | truncated
deriving DecidableEq, Repr

/-- The first instruction of a byte sequence, high byte first (R43, R60), and the bytes after it. -/
def decode : List Byte → Except DecodeError (Instr × List Byte)
  | hi :: lo :: rest => .ok (decodeWord (wordOfBytes hi lo), rest)
  | [_] => .error .truncated
  | [] => .error .truncated

/-- The host's question: the instruction the decoder reads from the two bytes that hold the word `w`. -/
def decodeTableWord (nbits w : Nat) : Option Instr :=
  let word : Word := BitVec.ofNat 16 (w % 2 ^ nbits)
  match decode [highByte word, lowByte word] with
  | .ok (i, _) => some i
  | .error _ => none

/-! ## The encoder -/

/-- A word from its four nibbles, the first one in bits 15:12 (R61). -/
def wordOfNibbles (t x y n : Nibble) : Word := t ++ x ++ y ++ n
/-- A word from its family, `X` and `NN` (R61, byte view). -/
def wordOfByteView (t x : Nibble) (nn : Byte) : Word := t ++ x ++ nn
/-- A word from its family and `NNN` (R61, address view). -/
def wordOfAddrView (t : Nibble) (nnn : Addr) : Word := t ++ nnn

/-- The word of an instruction, from the patterns of R65. -/
def encode : Instr → Word
  | .cls x => wordOfByteView 0x0 x 0xE0
  | .ret x => wordOfByteView 0x0 x 0xEE
  | .jp nnn => wordOfAddrView 0x1 nnn
  | .call nnn => wordOfAddrView 0x2 nnn
  | .seImm x nn => wordOfByteView 0x3 x nn
  | .sneImm x nn => wordOfByteView 0x4 x nn
  | .seReg x y n => wordOfNibbles 0x5 x y n
  | .ldImm x nn => wordOfByteView 0x6 x nn
  | .addImm x nn => wordOfByteView 0x7 x nn
  | .ldReg x y => wordOfNibbles 0x8 x y 0x0
  | .orReg x y => wordOfNibbles 0x8 x y 0x1
  | .andReg x y => wordOfNibbles 0x8 x y 0x2
  | .xorReg x y => wordOfNibbles 0x8 x y 0x3
  | .addReg x y => wordOfNibbles 0x8 x y 0x4
  | .subReg x y => wordOfNibbles 0x8 x y 0x5
  | .shr x y => wordOfNibbles 0x8 x y 0x6
  | .subnReg x y => wordOfNibbles 0x8 x y 0x7
  | .shl x y => wordOfNibbles 0x8 x y 0xE
  | .sneReg x y n => wordOfNibbles 0x9 x y n
  | .ldI nnn => wordOfAddrView 0xA nnn
  | .jpV0 nnn => wordOfAddrView 0xB nnn
  | .rnd x nn => wordOfByteView 0xC x nn
  | .drw x y n => wordOfNibbles 0xD x y n
  | .skp x => wordOfByteView 0xE x 0x9E
  | .sknp x => wordOfByteView 0xE x 0xA1
  | .ldVxDt x => wordOfByteView 0xF x 0x07
  | .ldVxK x => wordOfByteView 0xF x 0x0A
  | .ldDtVx x => wordOfByteView 0xF x 0x15
  | .ldStVx x => wordOfByteView 0xF x 0x18
  | .addI x => wordOfByteView 0xF x 0x1E
  | .ldF x => wordOfByteView 0xF x 0x29
  | .ldB x => wordOfByteView 0xF x 0x33
  | .ldMemVx x => wordOfByteView 0xF x 0x55
  | .ldVxMem x => wordOfByteView 0xF x 0x65
  | .nop w => w

/-- The two bytes of an instruction as memory holds them, high byte at the lower address (R43). -/
def encodeBytes (i : Instr) : List Byte := [highByte (encode i), lowByte (encode i)]

/-! ## The opcode map as a table (R65) -/

/-- The number of an instruction's row in the table of R65. -/
def Instr.row : Instr → Nat
  | .cls _ => 1
  | .ret _ => 2
  | .jp _ => 3
  | .call _ => 4
  | .seImm _ _ => 5
  | .sneImm _ _ => 6
  | .seReg _ _ _ => 7
  | .ldImm _ _ => 8
  | .addImm _ _ => 9
  | .ldReg _ _ => 10
  | .orReg _ _ => 11
  | .andReg _ _ => 12
  | .xorReg _ _ => 13
  | .addReg _ _ => 14
  | .subReg _ _ => 15
  | .shr _ _ => 16
  | .subnReg _ _ => 17
  | .shl _ _ => 18
  | .sneReg _ _ _ => 19
  | .ldI _ => 20
  | .jpV0 _ => 21
  | .rnd _ _ => 22
  | .drw _ _ _ => 23
  | .skp _ => 24
  | .sknp _ => 25
  | .ldVxDt _ => 26
  | .ldVxK _ => 27
  | .ldDtVx _ => 28
  | .ldStVx _ => 29
  | .addI _ => 30
  | .ldF _ => 31
  | .ldB _ => 32
  | .ldMemVx _ => 33
  | .ldVxMem _ => 34
  | .nop _ => 35

/-- One row of R65: a word `w` selects the first row with `w &&& mask = value`. -/
structure OpcodeRow where
  row : Nat
  mask : Word
  value : Word
deriving DecidableEq, Repr

/-- Rows 1 to 34 of R65, in its order. Row 35, `NOP`, is the default. -/
def opcodeRows : List OpcodeRow :=
  [⟨1, 0xF0FF, 0x00E0⟩, ⟨2, 0xF0FF, 0x00EE⟩, ⟨3, 0xF000, 0x1000⟩, ⟨4, 0xF000, 0x2000⟩,
   ⟨5, 0xF000, 0x3000⟩, ⟨6, 0xF000, 0x4000⟩, ⟨7, 0xF000, 0x5000⟩, ⟨8, 0xF000, 0x6000⟩,
   ⟨9, 0xF000, 0x7000⟩]
  ++ [⟨10, 0xF00F, 0x8000⟩, ⟨11, 0xF00F, 0x8001⟩, ⟨12, 0xF00F, 0x8002⟩, ⟨13, 0xF00F, 0x8003⟩,
   ⟨14, 0xF00F, 0x8004⟩, ⟨15, 0xF00F, 0x8005⟩, ⟨16, 0xF00F, 0x8006⟩, ⟨17, 0xF00F, 0x8007⟩,
   ⟨18, 0xF00F, 0x800E⟩]
  ++ [⟨19, 0xF000, 0x9000⟩, ⟨20, 0xF000, 0xA000⟩, ⟨21, 0xF000, 0xB000⟩, ⟨22, 0xF000, 0xC000⟩,
   ⟨23, 0xF000, 0xD000⟩, ⟨24, 0xF0FF, 0xE09E⟩, ⟨25, 0xF0FF, 0xE0A1⟩]
  ++ [⟨26, 0xF0FF, 0xF007⟩, ⟨27, 0xF0FF, 0xF00A⟩, ⟨28, 0xF0FF, 0xF015⟩, ⟨29, 0xF0FF, 0xF018⟩,
   ⟨30, 0xF0FF, 0xF01E⟩, ⟨31, 0xF0FF, 0xF029⟩, ⟨32, 0xF0FF, 0xF033⟩, ⟨33, 0xF0FF, 0xF055⟩,
   ⟨34, 0xF0FF, 0xF065⟩]

/-- Whether a word matches a row. -/
def OpcodeRow.matches (r : OpcodeRow) (w : Word) : Bool := w &&& r.mask == r.value

/-- The row that the table of R65 selects for a word: the first that matches, else row 35. -/
def tableRow (w : Word) : Nat :=
  match opcodeRows.find? (fun r => r.matches w) with
  | some r => r.row
  | none => 35

/-- The words that select `NOP` (R67): those that match no row of the table. -/
def isNopWord (w : Word) : Bool := opcodeRows.all (fun r => !r.matches w)

/-- Whether the operands of a term are ones that a word of its row holds. The types of the fields bound
every operand (R61), so one check is left: a `nop` carries a word that selects `NOP` (R67), not one of
a named operation. -/
def Instr.operandsValid : Instr → Bool
  | .nop w => isNopWord w
  | .cls _ | .ret _ | .jp _ | .call _ | .seImm _ _ | .sneImm _ _ | .seReg _ _ _ | .ldImm _ _
  | .addImm _ _ | .ldReg _ _ | .orReg _ _ | .andReg _ _ | .xorReg _ _ | .addReg _ _ | .subReg _ _
  | .shr _ _ | .subnReg _ _ | .shl _ _ | .sneReg _ _ _ | .ldI _ | .jpV0 _ | .rnd _ _ | .drw _ _ _
  | .skp _ | .sknp _ | .ldVxDt _ | .ldVxK _ | .ldDtVx _ | .ldStVx _ | .addI _ | .ldF _ | .ldB _
  | .ldMemVx _ | .ldVxMem _ => true

/-- The spelling of an instruction's operation (R65, R70), which the Disassembler prints. -/
def Instr.name : Instr → String
  | .cls _ => "CLS"
  | .ret _ => "RET"
  | .jp _ => "JP addr"
  | .call _ => "CALL addr"
  | .seImm _ _ => "SE Vx, byte"
  | .sneImm _ _ => "SNE Vx, byte"
  | .seReg _ _ _ => "SE Vx, Vy"
  | .ldImm _ _ => "LD Vx, byte"
  | .addImm _ _ => "ADD Vx, byte"
  | .ldReg _ _ => "LD Vx, Vy"
  | .orReg _ _ => "OR Vx, Vy"
  | .andReg _ _ => "AND Vx, Vy"
  | .xorReg _ _ => "XOR Vx, Vy"
  | .addReg _ _ => "ADD Vx, Vy"
  | .subReg _ _ => "SUB Vx, Vy"
  | .shr _ _ => "SHR Vx"
  | .subnReg _ _ => "SUBN Vx, Vy"
  | .shl _ _ => "SHL Vx"
  | .sneReg _ _ _ => "SNE Vx, Vy"
  | .ldI _ => "LD I, addr"
  | .jpV0 _ => "JP V0, addr"
  | .rnd _ _ => "RND Vx, byte"
  | .drw _ _ _ => "DRW Vx, Vy, N"
  | .skp _ => "SKP Vx"
  | .sknp _ => "SKNP Vx"
  | .ldVxDt _ => "LD Vx, DT"
  | .ldVxK _ => "LD Vx, K"
  | .ldDtVx _ => "LD DT, Vx"
  | .ldStVx _ => "LD ST, Vx"
  | .addI _ => "ADD I, Vx"
  | .ldF _ => "LD F, Vx"
  | .ldB _ => "LD B, Vx"
  | .ldMemVx _ => "LD [I], Vx"
  | .ldVxMem _ => "LD Vx, [I]"
  | .nop _ => "NOP"

end Sys2Proof
end

