-- ==== Sys2Proof/Config.lean ====
section
/-! DEFINITION. The constants of spec/00_scope.md R5 and the one free value of the model. -/

namespace Sys2Proof

/-- `MEM_SIZE` (R5): bytes of memory, addresses `0x000`..`0xFFF`. -/
def Config.memSize : Nat := 4096

/-- `FONT_BASE` (R5): address of the first byte of the font table. -/
def Config.fontBase : Nat := 0x050

/-- `GLYPH_BYTES` (R5): bytes per glyph. -/
def Config.glyphBytes : Nat := 5

/-- `PROG_BASE` (R5): load address of a ROM and reset value of `PC`. -/
def Config.progBase : Nat := 0x200

/-- `ROM_MAX` (R5): the largest loadable ROM, in bytes (4096 - 0x200). -/
def Config.romMax : Nat := 3584

/-- `SP_MAX` (R5): `CALL` fails when `SP` holds this value. -/
def Config.spMax : Byte := 15

/-- FREE VALUE (R26, R131, spec/92_eei_decisions.md D25; log entry 3). `Config.rngByte n` is the byte
that the `n`-th draw from the random source gives (`RngNext()`), counting from 0. The constant has no
body: nothing can be proved of a byte it gives but that it is a byte. -/
opaque Config.rngByte : Nat → Byte

@[simp] theorem Config.memSize_eq : Config.memSize = 4096 := rfl
@[simp] theorem Config.fontBase_eq : Config.fontBase = 80 := rfl
@[simp] theorem Config.glyphBytes_eq : Config.glyphBytes = 5 := rfl
@[simp] theorem Config.progBase_eq : Config.progBase = 512 := rfl
@[simp] theorem Config.romMax_eq : Config.romMax = 3584 := rfl
@[simp] theorem Config.spMax_eq : Config.spMax = 15 := rfl

end Sys2Proof
end

