-- ==== Sys2Proof/Machine/State.lean ====
section
/-! DEFINITION. The state of the machine (spec/10_state.md R10), the host's commands
(spec/46_host_operations.md R170), the failure kinds (spec/60_exceptions.md R190), and the state after
power-on (R28). -/

namespace Sys2Proof.Machine

/-- The closed list of failure kinds (R190): the `k` of an `Err(k)` that a host command returns. No
failure records an address or a word (R190), so none carries one here. Each is taken by `raise`: the
step goes on to a next state with the failure recorded (log entry 1, unsafe). -/
inductive Failure where
  /-- `CALL` with `SP = 15` (R191). -/
  | stackOverflow
  /-- `RET` with `SP = 0` (R192). -/
  | stackUnderflow
  /-- A fetch or a data access at or beyond address 4096 (R45, R193). -/
  | addressOutOfRange
  /-- `LoadROM` with more than 3584 bytes (R194). -/
  | capacityExceeded
  /-- `SetKeypress` with a key outside 0..15 (R195). -/
  | invalidArgument
deriving DecidableEq, Repr

/-- What a host command returns (R80, R170; 92_eei_decisions.md D4). -/
inductive Reply where
  | ok
  | err (k : Failure)
deriving DecidableEq, Repr

/-- The engine state (R19). -/
inductive Engine where
  | running
  | awaitingKey
deriving DecidableEq, Repr

/-- A command the host can issue that changes state (R170). The accessors change nothing and are pure
functions (Machine/Access.lean); construction is `State.reset`. -/
inductive Command where
  /-- `Clock()` (R176). -/
  | clock
  /-- `Fetch()` (R177). -/
  | fetch
  /-- `Reset()` (R173). -/
  | reset
  /-- `TickTimers()` (R174). -/
  | tickTimers
  /-- `SetKeypress(key, pressed)`; the key is any integer (R175, D33). -/
  | setKeypress (key : Int) (pressed : Bool)
  /-- `LoadROM(bytes)` (R172). -/
  | loadRom (bytes : List Byte)
deriving DecidableEq, Repr

/-- Memory as the list of the bytes that differ from the power-on image, by strictly rising address.
Machine/Ops.lean reads and writes it. -/
abbrev Memory := List Host.Cell

/-- The framebuffer, "Fixed grid of 64×32 one-bit pixels" (R21): row `y`, then column `x`. -/
abbrev Frame := Vector (Vector Bool 64) 32

/-- The state. The fields down to `romLen` are the spec's (R10); `X`, `Y`, `N`, `NN`, `NNN` are slices of
`opcode` (R18), read through the accessors of Machine/Access.lean. The fields after it are the model's. -/
structure State where
  /-- The 4096 bytes of memory (R25). -/
  mem : Memory
  /-- `V0`..`VF` (R11); `VF` is also the flag (R12). -/
  v : Vector Byte 16
  /-- The address register `I` (R15). -/
  i : Word
  /-- `PC` (R13). -/
  pc : Word
  /-- `SP` (R16). -/
  sp : Byte
  /-- The return-address stack (R17). -/
  stack : Vector Word 16
  /-- The decoded-instruction register `opcode` (R18). -/
  opcode : Word
  /-- `Running` or `AwaitingKey` (R19). -/
  engine : Engine
  /-- The keypad flags, true meaning pressed (R20). -/
  key : Vector Bool 16
  /-- The framebuffer (R21). -/
  fb : Frame
  /-- The delay timer (R22). -/
  dt : Byte
  /-- The sound timer (R23). -/
  st : Byte
  /-- Length of the last ROM loaded (R24). -/
  romLen : Nat
  /-- The model's own: how many bytes have been drawn from the random source (log entry 3). -/
  draws : Nat
  /-- The model's own: what the last command returned (log entry 31). -/
  reply : Reply
  /-- The model's own: the first failure of the run; no step clears it (R90; log entry 1). -/
  failed : Option Failure
  /-- The model's own: the commands the host is still to issue, first one first (log entry 2). -/
  pending : List Command
deriving DecidableEq, Repr

/-- Reasons to stop with a fault. There is none: every failure the spec names returns `Err(k)` and leaves
a state that the next command proceeds from (R90, R198, R199), so it is taken (`Failure`), and no
behaviour of this hardware is undefined. -/
inductive Fault
deriving DecidableEq, Repr

/-- Reasons to refuse an instruction. -/
inductive Refusal where
  /-- Raised by `exec` for an instruction that has no meaning yet, with the mnemonic of
  spec/opcode_table.json; safe. No arm of `exec` raises it now. -/
  | notModelled (mnemonic : String)
deriving DecidableEq, Repr

/-- What a step or an instruction answers. -/
abbrev Result := Host.Outcome State Fault Refusal

/-- The state after power-on (R28, R171, R220): font seeded (an unlisted byte reads as the power-on
image), `PC = 0x200`, everything else zero. The four fields of the model's own: log entries 1, 2, 3, 31. -/
def State.reset : State where
  mem := []
  v := Vector.replicate 16 0
  i := 0
  pc := 0x200
  sp := 0
  stack := Vector.replicate 16 0
  opcode := 0
  engine := .running
  key := Vector.replicate 16 false
  fb := Vector.replicate 32 (Vector.replicate 64 false)
  dt := 0
  st := 0
  romLen := 0
  draws := 0
  reply := .ok
  failed := none
  pending := []

end Sys2Proof.Machine
end

