-- ==== Sys2Proof/Machine/Ops.lean ====
section
/-! DEFINITION. The named operations over memory, registers, stack, keypad and framebuffer, and the one
operation that takes a failure. Every read and write of the state goes through these. -/

namespace Sys2Proof.Machine

/-! ## Memory (spec/20_memory.md) -/

/-- The font, glyph `0` first, five bytes a glyph (R42). The byte values are the spec's presumption
(93_implementation_defined.md G2; log entry 6). -/
def fontTable : List Byte :=
  [0xF0, 0x90, 0x90, 0x90, 0xF0] ++ [0x20, 0x60, 0x20, 0x20, 0x70]
  ++ [0xF0, 0x10, 0xF0, 0x80, 0xF0] ++ [0xF0, 0x10, 0xF0, 0x10, 0xF0]
  ++ [0x90, 0x90, 0xF0, 0x10, 0x10] ++ [0xF0, 0x80, 0xF0, 0x10, 0xF0]
  ++ [0xF0, 0x80, 0xF0, 0x90, 0xF0] ++ [0xF0, 0x10, 0x20, 0x40, 0x40]
  ++ [0xF0, 0x90, 0xF0, 0x90, 0xF0] ++ [0xF0, 0x90, 0xF0, 0x10, 0xF0]
  ++ [0xF0, 0x90, 0xF0, 0x90, 0x90] ++ [0xE0, 0x90, 0xE0, 0x90, 0xE0]
  ++ [0xF0, 0x80, 0x80, 0x80, 0xF0] ++ [0xE0, 0x90, 0x90, 0x90, 0xE0]
  ++ [0xF0, 0x80, 0xF0, 0x80, 0xF0] ++ [0xF0, 0x80, 0xF0, 0x80, 0x80]

/-- What an unlisted address reads as: the power-on image (R28, R220), the font at `0x050`..`0x09F` and
zero elsewhere. -/
def powerOnByte (a : Nat) : Byte :=
  if Config.fontBase ≤ a then fontTable.getD (a - Config.fontBase) 0 else 0

/-- The byte at an address. -/
def Memory.read : Memory → Nat → Byte
  | [], a => powerOnByte a
  | (k, b) :: m, a => if a = k then b else Memory.read m a

/-- Puts a byte in front of the rest of the list, unless it is what the address reads as anyway. -/
def Memory.consByte (a : Nat) (b : Byte) (m : Memory) : Memory :=
  if b = powerOnByte a then m else (a, b) :: m

/-- Memory with one byte written, in canonical form again. -/
def Memory.write : Memory → Nat → Byte → Memory
  | [], a, b => Memory.consByte a b []
  | (k, c) :: m, a, b =>
    if a < k then Memory.consByte a b ((k, c) :: m)
    else if a = k then Memory.consByte a b m
    else (k, c) :: Memory.write m a b

/-- Consecutive bytes written from an address upwards. -/
def Memory.writeBytes : Memory → Nat → List Byte → Memory
  | m, _, [] => m
  | m, a, b :: bs => Memory.writeBytes (Memory.write m a b) (a + 1) bs

/-- The canonical form: addresses strictly rising, all below 4096, and no entry equal to what the
unlisted address reads as. -/
abbrev Memory.wf (m : Memory) : Prop :=
  m.Pairwise (fun c d => c.1 < d.1) ∧ ∀ c ∈ m, c.1 < Config.memSize ∧ c.2 ≠ powerOnByte c.1

/-- Whether the `n` bytes from address `a` upwards all exist (R45): sums are on naturals, nothing wraps;
no byte is touched when `n = 0`. -/
def inRange (a n : Nat) : Bool := n = 0 || a + n ≤ Config.memSize

/-! ## Registers -/

/-- `V[x]` (R11). -/
def State.reg (s : State) (x : Nibble) : Byte := s.v[x.toNat]'x.isLt

/-- `V[x] <- b`. -/
def State.setReg (s : State) (x : Nibble) (b : Byte) : State := { s with v := s.v.set x.toNat b x.isLt }

/-- The index of `VF`. -/
def flagReg : Nibble := 0xF

/-- `VF <- b`, for the instructions that write `VF` as a flag (R12). -/
def State.setFlag (s : State) (b : Byte) : State := s.setReg flagReg b

/-- `I <- w` (R15). -/
def State.setI (s : State) (w : Word) : State := { s with i := w }

/-- `pc <- w` (R13). -/
def State.setPc (s : State) (w : Word) : State := { s with pc := w }

/-- `opcode <- w` and with it the five fields (R18, R84). -/
def State.setOpcode (s : State) (w : Word) : State := { s with opcode := w }

/-- `state <- e` (R19). -/
def State.setEngine (s : State) (e : Engine) : State := { s with engine := e }

/-- `DT <- b` (R22). -/
def State.setDt (s : State) (b : Byte) : State := { s with dt := b }

/-- `ST <- b` (R23). -/
def State.setSt (s : State) (b : Byte) : State := { s with st := b }

/-- Memory replaced. -/
def State.setMem (s : State) (m : Memory) : State := { s with mem := m }

/-- `rom_len <- n` (R24). -/
def State.setRomLen (s : State) (n : Nat) : State := { s with romLen := n }

/-- What the command returns. -/
def State.setReply (s : State) (r : Reply) : State := { s with reply := r }

/-- The host's remaining commands. -/
def State.setPending (s : State) (cs : List Command) : State := { s with pending := cs }

/-- Skips the next instruction: `pc <- PC + 2` (R105). The sum wraps at 16 bits only where no run
reaches (R13; log entry 32). -/
def State.skipNext (s : State) : State := s.setPc (s.pc + 2)

/-! ## The return-address stack (R17) -/

/-- `stack[p]`. `SP` never leaves 0..15 (R16); for a value above that the low four bits are taken
(log entry 14). -/
def State.stackAt (s : State) (p : Byte) : Word := s.stack[p.toNat % 16]'(Nat.mod_lt _ (by decide))

/-- `stack[SP] <- w`, then `SP <- SP + 1` (R103). -/
def State.push (s : State) (w : Word) : State :=
  { s with stack := s.stack.set (s.sp.toNat % 16) w (Nat.mod_lt _ (by decide)), sp := s.sp + 1 }

/-- `SP <- SP - 1`, then `pc <- stack[SP]` at the new `SP`; the entry is not cleared (R101). -/
def State.popPc (s : State) : State := { s with sp := s.sp - 1, pc := s.stackAt (s.sp - 1) }

/-! ## The keypad (R20) -/

/-- `key[k]`. -/
def State.keyDown (s : State) (k : Nibble) : Bool := s.key[k.toNat]'k.isLt

/-- `key[k] <- pressed`. -/
def State.setKey (s : State) (k : Nibble) (pressed : Bool) : State :=
  { s with key := s.key.set k.toNat pressed k.isLt }

/-- The sixteen key numbers in rising order. -/
def allNibbles : List Nibble := (List.range 16).map (BitVec.ofNat 4)

/-- The least `k` with `key[k]`, if a key is pressed (R162; 92_eei_decisions.md D13, log entry 11). -/
def State.lowestKey (s : State) : Option Nibble := allNibbles.find? (fun k => s.keyDown k)

/-! ## The framebuffer (R21) -/

/-- The pixel in column `x mod 64` of row `y mod 32`. -/
def Frame.pixel (fb : Frame) (x y : Nat) : Bool :=
  (fb[y % 32]'(Nat.mod_lt _ (by decide)))[x % 64]'(Nat.mod_lt _ (by decide))

/-- The pixel in column `x mod 64` of row `y mod 32` inverted (exclusive or with 1). -/
def Frame.flip (fb : Frame) (x y : Nat) : Frame :=
  fb.set (y % 32)
    ((fb[y % 32]'(Nat.mod_lt _ (by decide))).set (x % 64) (!(Frame.pixel fb x y)) (Nat.mod_lt _ (by decide)))
    (Nat.mod_lt _ (by decide))

/-- All pixels off. -/
def Frame.blank : Frame := Vector.replicate 32 (Vector.replicate 64 false)

/-- The framebuffer replaced. -/
def State.setFb (s : State) (fb : Frame) : State := { s with fb := fb }

/-! ## The random source (R26, R131) -/

/-- `RngNext()`: the byte of this draw (a free value) and the state with one byte consumed. -/
def State.rngNext (s : State) : Byte × State := (Config.rngByte s.draws, { s with draws := s.draws + 1 })

/-! ## Taking a failure (spec/60_exceptions.md) -/

/-- The state in which a command has returned `Err(k)`: the reply says so, and the first failure of the
run is recorded for good (R90, R199). Nothing else changes: no vector, no saved register, `PC` is not
redirected (R198). -/
def State.fail (s : State) (k : Failure) : State :=
  { s with reply := .err k, failed := some (s.failed.getD k) }

/-- `raise k` (R8): ends the command with `Err(k)`. The one way any failure is taken; there is no return
from it (R199): the next command proceeds from this state. -/
def raise (k : Failure) (s : State) : Result := .next (s.fail k)

end Sys2Proof.Machine
end

