-- ==== Sys2Proof/Machine/Flags.lean ====
section
/-! DEFINITION. The values of `VF` as a flag (spec/10_state.md R12): exactly 0 or 1, as 8-bit values
(spec/42_alu.md R132). -/

namespace Sys2Proof.Machine

/-- A condition as a flag value. -/
def flagOf (c : Bool) : Byte := if c then 1 else 0

/-- Carry of `vx + vy` (R126): the unreduced sum is above 255. -/
def carryOut (vx vy : Byte) : Byte := flagOf (decide (vx.toNat + vy.toNat > 255))

/-- Not-borrow of `a - b` (R127, R129): `a ≥ b`. -/
def notBorrow (a b : Byte) : Byte := flagOf (decide (a.toNat ≥ b.toNat))

/-- The bit `SHR` shifts out: old bit 0 (R128). -/
def shiftedOutRight (vx : Byte) : Byte := vx &&& 1

/-- The bit `SHL` shifts out: old bit 7 (R130). -/
def shiftedOutLeft (vx : Byte) : Byte := (vx >>> 7) &&& 1

/-- A flag-setting instruction's two writes in the order of its pseudocode: the flag, then the result, so
that with `X = F` the result survives (R88; 92_eei_decisions.md D8, log entry 9). -/
def State.setFlagThenReg (s : State) (flag : Byte) (x : Nibble) (b : Byte) : State :=
  (s.setFlag flag).setReg x b

end Sys2Proof.Machine
end

