-- ==== Sys2Proof/Machine/Operands.lean ====
section
/-! DEFINITION. Operand forms (spec/30_encoding.md R62; spec/43_index_memory.md R146). -/

namespace Sys2Proof.Machine

/-- `addr`: `NNN` zero-extended to 16 bits (R62). -/
def addrValue (nnn : Addr) : Word := nnn.setWidth 16

/-- `zext_16` of a register (R8). -/
def wordValue (b : Byte) : Word := b.setWidth 16

/-- `N` of `DRW` as a row count (R62), and `X` of the block transfers as a last index (R144, R145). -/
def countValue (n : Nibble) : Nat := n.toNat

/-- `vx[3:0]`: the key or digit a register names (R142, R160). A value above 15 counts by its low nibble
(92_eei_decisions.md D11, D12; log entry 10). -/
def lowNibble (b : Byte) : Nibble := b.extractLsb' 0 4

/-- The address of the glyph of a digit: `0x050 + 5 × d` (R142). -/
def glyphAddr (d : Nibble) : Word := BitVec.ofNat 16 (Config.fontBase + Config.glyphBytes * d.toNat)

/-- The effective address of the one data addressing mode: `I + k` on naturals (R146). -/
def effAddr (s : State) (k : Nat) : Nat := s.i.toNat + k

/-- The decimal digits of a byte, hundreds, tens, ones (R143). -/
def decimalDigits (b : Byte) : List Byte :=
  [BitVec.ofNat 8 (b.toNat / 100), BitVec.ofNat 8 (b.toNat / 10 % 10), BitVec.ofNat 8 (b.toNat % 10)]

/-- The contents of `V0`..`Vx` inclusive (R144). -/
def regsUpTo (s : State) (x : Nibble) : List Byte :=
  (List.range (countValue x + 1)).map (fun k => s.reg (BitVec.ofNat 4 k))

/-- The `n` bytes of memory from `I` upwards. -/
def bytesAtI (s : State) (n : Nat) : List Byte :=
  (List.range n).map (fun k => s.mem.read (effAddr s k))

/-- Registers loaded with consecutive bytes, from `V[k]` upwards in rising order (R145). -/
def State.loadRegs : State → Nat → List Byte → State
  | s, _, [] => s
  | s, k, b :: bs => State.loadRegs (s.setReg (BitVec.ofNat 4 k) b) (k + 1) bs

/-- Runs `act` where the `n` bytes from `I` upwards all exist, and otherwise takes `AddressOutOfRange`
before anything has changed (R45, R146). -/
def withBytesAtI (n : Nat) (s : State) (act : Result) : Result :=
  if inRange (effAddr s 0) n then act else raise .addressOutOfRange s

/-- Stores consecutive bytes from `I` upwards. -/
def storeAtI (bs : List Byte) (s : State) : Result :=
  withBytesAtI bs.length s (.next (s.setMem (s.mem.writeBytes (effAddr s 0) bs)))

/-- Skips the next instruction where a condition holds (R105). -/
def skipIf (c : Bool) (s : State) : Result := .next (if c then s.skipNext else s)

end Sys2Proof.Machine
end

