-- ==== Sys2Proof/Machine/Alu.lean ====
section
/-! DEFINITION. Load, arithmetic, logic, shift and random instructions (spec/42_alu.md). Arithmetic is
unsigned, 8 bits wide, modulo 256 (R132). -/

namespace Sys2Proof.Machine

/-- `LD Vx, byte` (R120). -/
def execLdImm (x : Nibble) (nn : Byte) (s : State) : Result := .next (s.setReg x nn)

/-- `ADD Vx, byte` (R121): no flag. -/
def execAddImm (x : Nibble) (nn : Byte) (s : State) : Result := .next (s.setReg x (s.reg x + nn))

/-- `LD Vx, Vy` (R122). -/
def execLdReg (x y : Nibble) (s : State) : Result := .next (s.setReg x (s.reg y))

/-- `OR Vx, Vy` (R123): no flag (log entry 17). -/
def execOrReg (x y : Nibble) (s : State) : Result := .next (s.setReg x (s.reg x ||| s.reg y))

/-- `AND Vx, Vy` (R124): no flag (log entry 17). -/
def execAndReg (x y : Nibble) (s : State) : Result := .next (s.setReg x (s.reg x &&& s.reg y))

/-- `XOR Vx, Vy` (R125): no flag (log entry 17). -/
def execXorReg (x y : Nibble) (s : State) : Result := .next (s.setReg x (s.reg x ^^^ s.reg y))

/-- `ADD Vx, Vy` (R126): `VF` is the carry. -/
def execAddReg (x y : Nibble) (s : State) : Result :=
  .next (s.setFlagThenReg (carryOut (s.reg x) (s.reg y)) x (s.reg x + s.reg y))

/-- `SUB Vx, Vy` (R127): `VF` is not-borrow. -/
def execSubReg (x y : Nibble) (s : State) : Result :=
  .next (s.setFlagThenReg (notBorrow (s.reg x) (s.reg y)) x (s.reg x - s.reg y))

/-- `SHR Vx` (R128): `VF` is the bit shifted out. -/
def execShr (x : Nibble) (s : State) : Result :=
  .next (s.setFlagThenReg (shiftedOutRight (s.reg x)) x (s.reg x >>> 1))

/-- `SUBN Vx, Vy` (R129): `VF` is not-borrow of `vy - vx`. -/
def execSubnReg (x y : Nibble) (s : State) : Result :=
  .next (s.setFlagThenReg (notBorrow (s.reg y) (s.reg x)) x (s.reg y - s.reg x))

/-- `SHL Vx` (R130): `VF` is the bit shifted out. -/
def execShl (x : Nibble) (s : State) : Result :=
  .next (s.setFlagThenReg (shiftedOutLeft (s.reg x)) x (s.reg x <<< 1))

/-- `RND Vx, byte` (R131): one byte is drawn, whatever the mask. -/
def execRnd (x : Nibble) (nn : Byte) (s : State) : Result :=
  .next (s.rngNext.2.setReg x (s.rngNext.1 &&& nn))

end Sys2Proof.Machine
end

