-- ==== Sys2Proof/Machine/Control.lean ====
section
/-! DEFINITION. Control transfer (spec/41_control_flow.md). On entry `PC = p + 2` (spec/40_engine_cycle.md
R82); operands are read from the state on entry (R88). -/

namespace Sys2Proof.Machine

/-- `NOP`, every unrecognised word (R100). -/
def execNop (s : State) : Result := .next s

/-- `RET` (R101): decrement, then read. -/
def execRet (s : State) : Result := if s.sp = 0 then raise .stackUnderflow s else .next s.popPc

/-- `JP addr` (R102). -/
def execJp (nnn : Addr) (s : State) : Result := .next (s.setPc (addrValue nnn))

/-- `CALL addr` (R103): push `PC`, then increment. -/
def execCall (nnn : Addr) (s : State) : Result :=
  if s.sp = Config.spMax then raise .stackOverflow s
  else .next ((s.push s.pc).setPc (addrValue nnn))

/-- `JP V0, addr` (R104): the sum is not reduced to 12 bits (log entry 19). -/
def execJpV0 (nnn : Addr) (s : State) : Result :=
  .next (s.setPc (addrValue nnn + wordValue (s.reg 0)))

/-- `SE Vx, byte` (R105). -/
def execSeImm (x : Nibble) (nn : Byte) (s : State) : Result := skipIf (s.reg x == nn) s

/-- `SNE Vx, byte` (R106). -/
def execSneImm (x : Nibble) (nn : Byte) (s : State) : Result := skipIf (s.reg x != nn) s

/-- `SE Vx, Vy` (R107). -/
def execSeReg (x y : Nibble) (s : State) : Result := skipIf (s.reg x == s.reg y) s

/-- `SNE Vx, Vy` (R108). -/
def execSneReg (x y : Nibble) (s : State) : Result := skipIf (s.reg x != s.reg y) s

end Sys2Proof.Machine
end

