-- ==== Sys2Proof/Machine/Display.lean ====
section
/-! DEFINITION. Display instructions (spec/44_display.md). -/

namespace Sys2Proof.Machine

/-- `CLS` (R150). -/
def execCls (s : State) : Result := .next (s.setFb Frame.blank)

/-- What drawing has done so far: the framebuffer and whether a pixel went from on to off. -/
structure Drawing where
  fb : Frame
  collision : Bool
deriving DecidableEq, Repr

/-- Column `c` of a sprite byte: bit 7 is the leftmost pixel (R151; 93_implementation_defined.md G3, log
entry 7). -/
def spriteBit (b : Byte) (c : Nat) : Bool := b.getLsbD (7 - c)

/-- One sprite bit over the pixel `(x, y)`, each coordinate taken modulo the size of the screen: a bit 1
inverts the pixel, and collides if the pixel was on (R151). -/
def drawBit (bit : Bool) (x y : Nat) (d : Drawing) : Drawing :=
  if bit then { fb := d.fb.flip x y, collision := d.collision || d.fb.pixel x y } else d

/-- The columns of one sprite row from column `c` on, `k` of them. -/
def drawColumns (b : Byte) (x0 y : Nat) : Nat → Nat → Drawing → Drawing
  | _, 0, d => d
  | c, k + 1, d => drawColumns b x0 y (c + 1) k (drawBit (spriteBit b c) (x0 + c) y d)

/-- The rows of a sprite from screen row `y` downwards, eight columns each, per-pixel wraparound (R151). -/
def drawRows (x0 : Nat) : Nat → List Byte → Drawing → Drawing
  | _, [], d => d
  | y, b :: bs, d => drawRows x0 (y + 1) bs (drawColumns b x0 y 0 8 d)

/-- `DRW Vx, Vy, N` (R151): `N` rows from `I`, at `(Vx mod 64, Vy mod 32)`; `VF` is written once, at the
end. -/
def execDrw (x y n : Nibble) (s : State) : Result :=
  let drawn := drawRows ((s.reg x).toNat % 64) ((s.reg y).toNat % 32) (bytesAtI s (countValue n))
    { fb := s.fb, collision := false }
  withBytesAtI (countValue n) s (.next ((s.setFb drawn.fb).setFlag (flagOf drawn.collision)))

end Sys2Proof.Machine
end

