-- ==== Sys2Proof/Machine/IndexMemory.lean ====
section
/-! DEFINITION. Address-register and memory instructions (spec/43_index_memory.md). `I` is never changed by
a memory access (R146). -/

namespace Sys2Proof.Machine

/-- `LD I, addr` (R140). -/
def execLdI (nnn : Addr) (s : State) : Result := .next (s.setI (addrValue nnn))

/-- `ADD I, Vx` (R141): modulo 65536, no flag (log entries 17, 19). -/
def execAddI (x : Nibble) (s : State) : Result := .next (s.setI (s.i + wordValue (s.reg x)))

/-- `LD F, Vx` (R142). -/
def execLdF (x : Nibble) (s : State) : Result := .next (s.setI (glyphAddr (lowNibble (s.reg x))))

/-- `LD B, Vx` (R143). -/
def execLdB (x : Nibble) (s : State) : Result := storeAtI (decimalDigits (s.reg x)) s

/-- `LD [I], Vx` (R144). -/
def execLdMemVx (x : Nibble) (s : State) : Result := storeAtI (regsUpTo s x) s

/-- `LD Vx, [I]` (R145). -/
def execLdVxMem (x : Nibble) (s : State) : Result :=
  withBytesAtI (countValue x + 1) s (.next (s.loadRegs 0 (bytesAtI s (countValue x + 1))))

end Sys2Proof.Machine
end

