-- ==== Sys2Proof/Machine/KeypadTimers.lean ====
section
/-! DEFINITION. Keypad and timer instructions (spec/45_keypad_timers.md). -/

namespace Sys2Proof.Machine

/-- `SKP Vx` (R160). -/
def execSkp (x : Nibble) (s : State) : Result := skipIf (s.keyDown (lowNibble (s.reg x))) s

/-- `SKNP Vx` (R161). -/
def execSknp (x : Nibble) (s : State) : Result := skipIf (!s.keyDown (lowNibble (s.reg x))) s

/-- `LD Vx, K` (R162): the least pressed key, or suspend without writing. `PC` is not written. -/
def execLdVxK (x : Nibble) (s : State) : Result :=
  match s.lowestKey with
  | some k => .next ((s.setReg x (k.setWidth 8)).setEngine .running)
  | none => .next (s.setEngine .awaitingKey)

/-- `LD Vx, DT` (R164). -/
def execLdVxDt (x : Nibble) (s : State) : Result := .next (s.setReg x s.dt)

/-- `LD DT, Vx` (R165). -/
def execLdDtVx (x : Nibble) (s : State) : Result := .next (s.setDt (s.reg x))

/-- `LD ST, Vx` (R166). -/
def execLdStVx (x : Nibble) (s : State) : Result := .next (s.setSt (s.reg x))

end Sys2Proof.Machine
end

