-- ==== Sys2Proof/Machine/Fetch.lean ====
section
/-! DEFINITION. The fetch and decode phases (spec/40_engine_cycle.md R82, R83, R84). -/

namespace Sys2Proof.Machine

/-- Whether the two bytes at `PC` exist (R82). -/
def canFetch (s : State) : Bool := inRange s.pc.toNat 2

/-- The two bytes at `PC`, combined high byte first (R43). -/
def fetchWord (s : State) : Word :=
  wordOfBytes (s.mem.read s.pc.toNat) (s.mem.read (s.pc.toNat + 1))

/-- The fetch and decode phases: in `Running`, loads `opcode` (and with it the five fields, R84) and
advances `PC` by 2, or fails with nothing changed; in `AwaitingKey`, changes nothing and reads no memory
(R83). -/
def fetchPhase (s : State) : Except Failure State :=
  match s.engine with
  | .awaitingKey => .ok s
  | .running =>
    if canFetch s then .ok ((s.setOpcode (fetchWord s)).setPc (s.pc + 2))
    else .error .addressOutOfRange

end Sys2Proof.Machine
end

