-- ==== Sys2Proof/Machine/HostOps.lean ====
section
/-! DEFINITION. The host commands that change state (spec/46_host_operations.md). Each begins with the
reply `Ok`; `raise` turns it into `Err(k)`. -/

namespace Sys2Proof.Machine

/-- `Clock()` (R80, R81): fetch, decode, dispatch, execute. -/
def clock (s : State) : Result :=
  match fetchPhase (s.setReply .ok) with
  | .error k => raise k s
  | .ok t => exec (decodeWord t.opcode) t

/-- `Fetch()` (R91, R177): the fetch and decode phases and nothing else. -/
def fetchCommand (s : State) : Result :=
  match fetchPhase (s.setReply .ok) with
  | .error k => raise k s
  | .ok t => .next t

/-- `Reset()` (R173, R221). Memory, keypad, `rom_len` and the random source are left alone
(90_conflicts.md C2; 92_eei_decisions.md D16; log entry 13), and so are the model's own record of a
failure and the host's remaining commands. -/
def resetCommand (s : State) : Result :=
  .next { State.reset with
    mem := s.mem
    key := s.key
    romLen := s.romLen
    draws := s.draws
    failed := s.failed
    pending := s.pending }

/-- A timer decremented by one, floored at 0 (R22). -/
def countDown (b : Byte) : Byte := if b = 0 then 0 else b - 1

/-- `TickTimers()` (R174). -/
def tickTimers (s : State) : Result :=
  .next (((s.setDt (countDown s.dt)).setSt (countDown s.st)).setReply .ok)

/-- `SetKeypress(key, pressed)` (R175). -/
def setKeypress (key : Int) (pressed : Bool) (s : State) : Result :=
  if key < 0 ∨ key > 15 then raise .invalidArgument s
  else .next ((s.setKey (BitVec.ofInt 4 key) pressed).setReply .ok)

/-- `LoadROM(bytes)` (R172): exactly the bytes given, at `0x200` and up (log entry 21). -/
def loadRom (bytes : List Byte) (s : State) : Result :=
  if bytes.length > Config.romMax then raise .capacityExceeded s
  else .next (((s.setMem (s.mem.writeBytes Config.progBase bytes)).setRomLen bytes.length).setReply .ok)

/-- One host command (R170). -/
def runCommand (c : Command) (s : State) : Result :=
  match c with
  | .clock => clock s
  | .fetch => fetchCommand s
  | .reset => resetCommand s
  | .tickTimers => tickTimers s
  | .setKeypress key pressed => setKeypress key pressed s
  | .loadRom bytes => loadRom bytes s

/-- The command the host issues now: the first one pending, and `Clock()` when none is (log entry 2). -/
def nextCommand (s : State) : Command :=
  match s.pending with
  | [] => .clock
  | c :: _ => c

/-- The state with that command taken off the list. -/
def State.issued (s : State) : State := s.setPending s.pending.tail

end Sys2Proof.Machine
end

