-- ==== Sys2Proof/Machine/Step.lean ====
section
/-! DEFINITION. One step of the machine: one host command (spec/00_scope.md R6). -/

namespace Sys2Proof.Machine

/-- Issues the host's next command; with nothing pending that is `Clock()`. -/
def step (s : State) : Host.Outcome State Fault Refusal :=
  runCommand (nextCommand s) s.issued

/-- Where `withFetchWord` puts the instruction: at `PC`, or at `0x200` when `PC` cannot be fetched from. -/
def State.fetchPoint (s : State) : Word := if canFetch s then s.pc else BitVec.ofNat 16 Config.progBase

/-- `s` with the word `w` stored, high byte first, where the next step fetches its instruction: the step is
a `Clock()` in `Running` (log entry 15). -/
def State.withFetchWord (s : State) (nbits w : Nat) : State :=
  let word : Word := BitVec.ofNat 16 (w % 2 ^ nbits)
  let at' := s.fetchPoint
  { s with
    mem := s.mem.writeBytes at'.toNat [highByte word, lowByte word]
    pc := at'
    engine := .running
    pending := [] }

end Sys2Proof.Machine
end

