-- ==== Sys2Proof/Machine/Access.lean ====
section
/-! DEFINITION. What the host can read (spec/46_host_operations.md R178, R179, R181): pure functions of a
state. `PC`, `SP`, `I`, `opcode`, `DT` and `ST` are the fields of State themselves. -/

namespace Sys2Proof.Machine

/-- The memory accessor: the byte at any address 0..4095 (R48; log entry 28). -/
def hostMemory (s : State) (a : Fin 4096) : Byte := s.mem.read a.val

/-- The register accessor (R178). -/
def hostRegister (s : State) (x : Fin 16) : Byte := s.reg (BitVec.ofFin x)

/-- The decoded field `X` (R18). -/
def State.fieldX (s : State) : Nibble := Sys2Proof.fieldX s.opcode
/-- The decoded field `Y` (R18). -/
def State.fieldY (s : State) : Nibble := Sys2Proof.fieldY s.opcode
/-- The decoded field `N` (R18). -/
def State.fieldN (s : State) : Nibble := Sys2Proof.fieldN s.opcode
/-- The decoded field `NN` (R18). -/
def State.fieldNN (s : State) : Byte := Sys2Proof.fieldNN s.opcode
/-- The decoded field `NNN` (R18). -/
def State.fieldNNN (s : State) : Addr := Sys2Proof.fieldNNN s.opcode

/-- The framebuffer accessor (R179): row-major, element `y × 64 + x` is `fb[y][x]`. -/
def hostFramebuffer (s : State) : List Bool := s.fb.toList.flatMap (fun row => row.toList)

/-- One line of the Disassembler's listing as data: "address, resolved operation name, raw opcode" (R181).
Its text format is out of scope (00_scope.md R4). -/
structure ListingLine where
  address : Nat
  name : String
  opcode : Word
deriving DecidableEq, Repr

/-- The line of the word at an address, decoded by the dispatcher of execution. -/
def listingLine (s : State) (a : Nat) : ListingLine :=
  let w := wordOfBytes (s.mem.read a) (s.mem.read (a + 1))
  { address := a, name := (decodeWord w).name, opcode := w }

/-- `Disassemble()` (R181): the words from `0x200` in 2-byte strides up to the address `stop`. Whether the
scan ends with memory (`stop = 4096`) or with the ROM (`stop = 0x200 + rom_len`) is open
(92_eei_decisions.md D30; log entry 27), so the end is an argument. -/
def disassemble (s : State) (stop : Nat) : List ListingLine :=
  (List.range ((stop - Config.progBase) / 2)).map (fun k => listingLine s (Config.progBase + 2 * k))

end Sys2Proof.Machine
end

