-- ==== Sys2Proof/Safety.lean ====
section
/-! DEFINITION. What claims about the machine are stated in terms of: the invariant of its states and the
runs that met no failure. -/

namespace Sys2Proof.Machine

/-- `mem` is in its canonical form. -/
def MemoryCanonical (s : State) : Prop := s.mem.wf

/-- `SP` holds only 0..15 (R16), and entry 15 of the stack, which is never written, is 0 (R17). -/
def StackSound (s : State) : Prop := s.sp.toNat ≤ 15 ∧ s.stack[15] = 0

/-- `PC` is at most `0x10FE` (R13), and every stacked return address at most `0x1000`. -/
def PcBounded (s : State) : Prop :=
  s.pc.toNat ≤ 0x10FE ∧ ∀ k, (h : k < 16) → s.stack[k].toNat ≤ 0x1000

/-- In `AwaitingKey` the held word is an `LD Vx, K` (R89). -/
def HoldsKeyWait (s : State) : Prop := s.engine = .awaitingKey → s.opcode &&& 0xF0FF = 0xF00A

/-- `rom_len` is in 0..3584 (R24). -/
def RomLenBounded (s : State) : Prop := s.romLen ≤ 3584

/-- A failing reply has been recorded (R90). -/
def FailureRecorded (s : State) : Prop := s.reply ≠ .ok → s.failed ≠ none

/-- The invariant of the machine's states: it holds at `State.reset` and every step keeps it. -/
structure Inv (s : State) : Prop where
  memory : MemoryCanonical s
  stack : StackSound s
  pc : PcBounded s
  wait : HoldsKeyWait s
  rom : RomLenBounded s
  record : FailureRecorded s

/-- No command has failed so far (R222 "no fault recorded"). A claim about a run that must not rest on what
the machine does after a failure has this of its last state as a hypothesis (R90, R199; log entry 1). -/
def NoFailure (s : State) : Prop := s.failed = none

/-- The launch premise of R222: power-on memory with the ROM at `0x200`, all registers as after power-on. -/
def Launch (rom : List Byte) (commands : List Command) (s : State) : Prop :=
  rom.length ≤ 3584 ∧
  s = { State.reset with
    mem := Memory.writeBytes [] 0x200 rom, romLen := rom.length, pending := commands }

end Sys2Proof.Machine
end

