-- ==== Sys2Proof/WellFormed.lean ====
section
/-! DEFINITION. Which terms of `Instr` are instructions: those whose operands a word of their row of
spec/30_encoding.md R65 can hold. The check itself stands beside the decoder it goes with. -/

namespace Sys2Proof

def Instr.wellFormed (i : Instr) : Bool := i.operandsValid

end Sys2Proof
end

