-- ==== Sys2Proof/Certificates/Slice0/Obligations.lean ====
section
/-! DEFINITION. The statements for the provers. Each docstring names the rule of spec/ it follows; where a
clause rests on a choice of the spec's writer (a decision D<n> or a general-knowledge passage G<n>) or of
the model, the docstring says so and names the log entry. -/

namespace Sys2Proof.Claim

open Sys2Proof.Machine

/-- `t` is `s` but for register `x`. -/
def ChangesReg (x : Nibble) (s t : State) : Prop :=
  (∀ r, r ≠ x → t.reg r = s.reg r) ∧ t = { s with v := t.v }

/-- `t` is `s` but for register `x` and `VF`. -/
def ChangesRegAndFlag (x : Nibble) (s t : State) : Prop :=
  (∀ r, r ≠ x → r ≠ 0xF → t.reg r = s.reg r) ∧ t = { s with v := t.v }

/-- `t` is `s` with `Err(k)` returned and recorded, and nothing else changed (log entries 1, 31). -/
def FailsWith (k : Failure) (s t : State) : Prop :=
  t = { s with reply := .err k, failed := some (s.failed.getD k) }

/-- The instruction that the next step executes, if it executes one: the word at `PC` in `Running`, the held
word in `AwaitingKey`, none when the host's next command is not `Clock()` or the fetch fails. -/
def executed (s : State) : Option Instr :=
  if nextCommand s = .clock then
    match s.engine with
    | .awaitingKey => some (decodeWord s.opcode)
    | .running =>
      if s.pc.toNat + 1 < 4096 then
        some (decodeWord (s.mem.read s.pc.toNat ++ s.mem.read (s.pc.toNat + 1)))
      else none
  else none

/-- The next step executes an instruction of which `p` holds. -/
def Executes (s : State) (p : Instr → Prop) : Prop := ∃ i, executed s = some i ∧ p i

/-- Whether a sprite bit 1 lies over the pixel in column `px`, row `py` (R151): the bit of row `r`, column `c`
of the sprite, bit 7 leftmost, where that row and column fall with wraparound. -/
def spriteOver (s : State) (x y n : Nibble) (px py : Nat) : Prop :=
  ∃ r c, r < n.toNat ∧ c < 8 ∧ (s.mem.read (s.i.toNat + r)).getLsbD (7 - c) = true ∧
    px = ((s.reg x).toNat % 64 + c) % 64 ∧ py = ((s.reg y).toNat % 32 + r) % 32

/-- `PC` after a `Clock()` that fetched `i` at `p`, from the state `s` before it (R14). -/
def pcAfter (i : Instr) (s : State) : Nat :=
  let p := s.pc.toNat
  match i with
  | .jp nnn => nnn.toNat
  | .call nnn => if s.sp = 15 then p + 2 else nnn.toNat
  | .ret _ => if s.sp = 0 then p + 2 else (s.stackAt (s.sp - 1)).toNat
  | .jpV0 nnn => nnn.toNat + (s.reg 0).toNat
  | .seImm x nn => if s.reg x = nn then p + 4 else p + 2
  | .sneImm x nn => if s.reg x = nn then p + 2 else p + 4
  | .seReg x y _ => if s.reg x = s.reg y then p + 4 else p + 2
  | .sneReg x y _ => if s.reg x = s.reg y then p + 2 else p + 4
  | .skp x => if s.keyDown (BitVec.ofNat 4 (s.reg x).toNat) then p + 4 else p + 2
  | .sknp x => if s.keyDown (BitVec.ofNat 4 (s.reg x).toNat) then p + 2 else p + 4
  | .cls _ | .ldImm _ _ | .addImm _ _ | .ldReg _ _ | .orReg _ _ | .andReg _ _ | .xorReg _ _
  | .addReg _ _ | .subReg _ _ | .shr _ _ | .subnReg _ _ | .shl _ _ | .ldI _ | .rnd _ _ | .drw _ _ _
  | .ldVxDt _ | .ldVxK _ | .ldDtVx _ | .ldStVx _ | .addI _ | .ldF _ | .ldB _ | .ldMemVx _ | .ldVxMem _
  | .nop _ => p + 2

/-- The registers an instruction names as destination, or writes as the flag (R12, R14): everything that
may differ in `V` after it. -/
def writesReg (r : Nibble) : Instr → Prop
  | .ldImm x _ | .addImm x _ | .ldReg x _ | .orReg x _ | .andReg x _ | .xorReg x _ | .rnd x _
  | .ldVxDt x | .ldVxK x => r = x
  | .addReg x _ | .subReg x _ | .shr x _ | .subnReg x _ | .shl x _ => r = x ∨ r = 0xF
  | .drw _ _ _ => r = 0xF
  | .ldVxMem x => r.toNat ≤ x.toNat
  | .cls _ | .ret _ | .jp _ | .call _ | .seImm _ _ | .sneImm _ _ | .seReg _ _ _ | .sneReg _ _ _
  | .ldI _ | .jpV0 _ | .skp _ | .sknp _ | .ldDtVx _ | .ldStVx _ | .addI _ | .ldF _ | .ldB _
  | .ldMemVx _ | .nop _ => False

/-- The bytes an instruction stores to: the effective address of the first (R146) and how many. -/
def storeSpan (s : State) : Instr → Option (Nat × Nat)
  | .ldB _ => some (effAddr s 0, 3)
  | .ldMemVx x => some (effAddr s 0, x.toNat + 1)
  | .cls _ | .ret _ | .jp _ | .call _ | .seImm _ _ | .sneImm _ _ | .seReg _ _ _ | .sneReg _ _ _
  | .ldImm _ _ | .addImm _ _ | .ldReg _ _ | .orReg _ _ | .andReg _ _ | .xorReg _ _ | .addReg _ _
  | .subReg _ _ | .shr _ _ | .subnReg _ _ | .shl _ _ | .ldI _ | .jpV0 _ | .rnd _ _ | .drw _ _ _
  | .skp _ | .sknp _ | .ldVxDt _ | .ldVxK _ | .ldDtVx _ | .ldStVx _ | .addI _ | .ldF _ | .ldVxMem _
  | .nop _ => none

end Sys2Proof.Claim

section

open Sys2Proof Sys2Proof.Machine Sys2Proof.Claim

/-! ## Encoding (spec/30_encoding.md). The numeric opcode values are general knowledge (G1; log entry 4)
and the masks decision D3 (log entry 5): every statement here is the model's reading of R65. -/

/-- Decoding the bytes of a well-formed instruction gives it back, whatever follows it (R60, R61, R65). -/
def Obligations.DecodeOfEncodeIsTheInstruction : Prop :=
  ∀ (i : Instr) (rest : List Byte), i.wellFormed = true → decode (encodeBytes i ++ rest) = .ok (i, rest)

/-- Every one of the 65536 words is the encoding of the well-formed instruction it decodes to: no bit of a
word is lost (R61, R65, R68). -/
def Obligations.EncodeOfDecodeIsTheWord : Prop :=
  ∀ w : Word, (decodeWord w).wellFormed = true ∧ encode (decodeWord w) = w

/-- The dispatcher by families (R63, R64) selects for every word the row that the mask and match table (R65)
selects, and no word matches two of rows 1 to 34 (R65). -/
def Obligations.DispatcherAgreesWithOpcodeTable : Prop :=
  (∀ w : Word, (decodeWord w).row = tableRow w) ∧
  (∀ (w : Word) (a b : OpcodeRow), a ∈ opcodeRows → b ∈ opcodeRows →
    a.matches w = true → b.matches w = true → a = b)

/-- R67: the words that select `NOP` are exactly those of the four families with an unassigned selector. -/
def Obligations.NopWordsAreTheUnassignedSelectors : Prop :=
  ∀ w : Word, decodeWord w = .nop w ↔
    (w.toNat / 4096 = 0x0 ∧ w.toNat % 256 ∉ [0xE0, 0xEE]) ∨
    (w.toNat / 4096 = 0x8 ∧ w.toNat % 16 ∈ [0x8, 0x9, 0xA, 0xB, 0xC, 0xD, 0xF]) ∨
    (w.toNat / 4096 = 0xE ∧ w.toNat % 256 ∉ [0x9E, 0xA1]) ∨
    (w.toNat / 4096 = 0xF ∧ w.toNat % 256 ∉ [0x07, 0x0A, 0x15, 0x18, 0x1E, 0x29, 0x33, 0x55, 0x65])

/-- No word is refused, and bytes are refused exactly when they are fewer than two (R60, R67); words written out
from R65 (spec/95_test_vectors.md T-DEC-1, 6, 8, 9, 12, 14, 15, 16, 19, 20, 23, 25). -/
def Obligations.SampleWordsDecodeAsTheSpecLists : Prop :=
  (∀ bs : List Byte, decode bs = .error .truncated ↔ bs.length < 2) ∧
  decodeWord 0x00E0 = .cls 0x0 ∧ decodeWord 0x0FEE = .ret 0xF ∧ decodeWord 0x2FFF = .call 0xFFF ∧
  decodeWord 0x3A42 = .seImm 0xA 0x42 ∧ decodeWord 0x512F = .seReg 0x1 0x2 0xF ∧
  decodeWord 0x8AB5 = .subReg 0xA 0xB ∧ decodeWord 0x8ABE = .shl 0xA 0xB ∧
  decodeWord 0x8ABF = .nop 0x8ABF ∧ decodeWord 0xC1F0 = .rnd 0x1 0xF0 ∧
  decodeWord 0xD125 = .drw 0x1 0x2 0x5 ∧ decodeWord 0xF155 = .ldMemVx 0x1 ∧ decodeWord 0xFFFF = .nop 0xFFFF

/-- R68: the bits an instruction ignores have no effect. Which bits those are rests on D3 and D10 (log
entries 5, 25). -/
def Obligations.IgnoredBitsHaveNoEffect : Prop :=
  ∀ (x y a b : Nibble) (w w' : Word) (s : State),
    exec (.cls a) s = exec (.cls b) s ∧ exec (.ret a) s = exec (.ret b) s ∧
    exec (.seReg x y a) s = exec (.seReg x y b) s ∧ exec (.sneReg x y a) s = exec (.sneReg x y b) s ∧
    exec (.shr x a) s = exec (.shr x b) s ∧ exec (.shl x a) s = exec (.shl x b) s ∧
    exec (.nop w) s = exec (.nop w') s

/-! ## The engine cycle (spec/40_engine_cycle.md) -/

/-- R81, R82, R86: with the host issuing `Clock()`, the engine in `Running` and both bytes at `PC` in memory,
a step is `exec` of the instruction those bytes decode to, on the state with `opcode` loaded, `PC` advanced
by 2, the command taken off the host's list and the reply `Ok` (the last two are the model's own fields: log
entries 2, 31). -/
def Obligations.StepRunsTheDecodedInstruction : Prop :=
  ∀ (s : State) (i : Instr) (rest : List Byte),
    nextCommand s = .clock → s.engine = .running → s.pc.toNat + 1 < 4096 →
    decode [s.mem.read s.pc.toNat, s.mem.read (s.pc.toNat + 1)] = .ok (i, rest) →
    i.wellFormed = true ∧ rest = [] ∧
    step s = exec i { s with
      opcode := s.mem.read s.pc.toNat ++ s.mem.read (s.pc.toNat + 1)
      pc := s.pc + 2
      reply := .ok
      pending := s.pending.tail }

/-- R82 with decision D6 (log entry 8): a fetch that would touch address 4096 or beyond returns
`AddressOutOfRange` and changes nothing, for `Clock()` and `Fetch()` alike. -/
def Obligations.FetchBeyondMemoryChangesNothing : Prop :=
  ∀ s : State, (nextCommand s = .clock ∨ nextCommand s = .fetch) → s.engine = .running →
    4096 ≤ s.pc.toNat + 1 →
    ∃ t, step s = .next t ∧ FailsWith .addressOutOfRange { s with pending := s.pending.tail } t

/-- R83 with decision D15 (log entry 12): in `AwaitingKey` a `Clock()` dispatches the held word again, with
`PC` and `opcode` as they are; no byte of memory plays a part in which instruction runs. -/
def Obligations.KeyWaitDispatchesTheHeldWord : Prop :=
  ∀ s : State, nextCommand s = .clock → s.engine = .awaitingKey →
    step s = exec (decodeWord s.opcode) { s with reply := .ok, pending := s.pending.tail }

/-- R91 with decision D28 (log entry 24): `Fetch()` loads `opcode` and its five fields and advances `PC`, and
does nothing else; in `AwaitingKey` it changes nothing. -/
def Obligations.FetchCommandLoadsWithoutExecuting : Prop :=
  ∀ s : State, nextCommand s = .fetch →
    (s.engine = .running → s.pc.toNat + 1 < 4096 →
      ∃ t, step s = .next t ∧ t.opcode = s.mem.read s.pc.toNat ++ s.mem.read (s.pc.toNat + 1) ∧
        t.pc.toNat = s.pc.toNat + 2 ∧
        t = { s with opcode := t.opcode, pc := t.pc, reply := .ok, pending := s.pending.tail }) ∧
    (s.engine = .awaitingKey → step s = .next { s with reply := .ok, pending := s.pending.tail })

/-- R84: the five fields are the stated slices of `opcode` in every state. -/
def Obligations.FieldsAreSlicesOfOpcode : Prop :=
  ∀ s : State, s.fieldX.toNat = s.opcode.toNat / 256 % 16 ∧ s.fieldY.toNat = s.opcode.toNat / 16 % 16 ∧
    s.fieldN.toNat = s.opcode.toNat % 16 ∧ s.fieldNN.toNat = s.opcode.toNat % 256 ∧
    s.fieldNNN.toNat = s.opcode.toNat % 4096

/-- R87, the transition table of the engine, per `Clock()`, in states that hold the wait's invariant (R89).
`k` is the lowest pressed key (D13, log entry 11); a suspended wait goes on with the held word (D15, log entry 12). -/
def Obligations.EngineFollowsTheTransitionTable : Prop :=
  ∀ s : State, HoldsKeyWait s → nextCommand s = .clock → ∃ t, step s = .next t ∧
    (s.engine = .running → executed s = none → t.engine = .running) ∧
    (s.engine = .running → Executes s (fun i => ∀ x, i ≠ .ldVxK x) → t.engine = .running) ∧
    (∀ x, executed s = some (.ldVxK x) → (∀ k, s.keyDown k = false) →
      t.engine = .awaitingKey ∧ t.v = s.v) ∧
    (∀ x k, executed s = some (.ldVxK x) → s.keyDown k = true →
      (∀ j, j.toNat < k.toNat → s.keyDown j = false) →
      t.engine = .running ∧ (t.reg x).toNat = k.toNat) ∧
    (s.engine = .awaitingKey → (∀ k, s.keyDown k = false) →
      t = { s with reply := .ok, pending := s.pending.tail }) ∧
    (s.engine = .awaitingKey → (∃ k, s.keyDown k = true) → t.engine = .running)

/-- R92, R198: there is no halt and no failure that ends a run: every step of every state answers a next
state. That a failed command is followed by a next state is the model's taking of it (log entry 1). -/
def Obligations.EveryStepAnswersANextState : Prop :=
  ∀ s : State, ∃ t, step s = .next t

/-- R14: `PC` after every instruction executed in `Running`. It rests on D5 for a failing `CALL` or `RET`, D11 for the
key skips, D23 for `JP V0` and D15 for `LD Vx, K`, whose `p + 2` also stands when it suspends (log entries 1, 10, 19,
12); the entry that `RET` reads with `SP` above 15, which no run reaches, is the model's choice (log entry 14). -/
def Obligations.PcAfterEveryInstruction : Prop :=
  ∀ (s t : State) (i : Instr), s.engine = .running → executed s = some i → step s = .next t →
    t.pc.toNat = pcAfter i s

/-- R90 (decision D5, log entry 1): when a handler fails, only the fetch's effects stand: `opcode` and its
fields hold the failing word and `PC = p + 2`; the failure is returned and recorded. -/
def Obligations.FailedInstructionLeavesOnlyFetchEffects : Prop :=
  ∀ (s t : State) (k : Failure), s.engine = .running → executed s ≠ none → step s = .next t →
    t.reply = .err k →
    FailsWith k { s with
      opcode := s.mem.read s.pc.toNat ++ s.mem.read (s.pc.toNat + 1)
      pc := s.pc + 2
      pending := s.pending.tail } t

/-- R190, R197: each failure kind comes only from its raisers. That an access beyond memory is a failure is
decision D6 (log entry 8). -/
def Obligations.EachFailureComesFromItsRaisers : Prop :=
  ∀ (s t : State) (k : Failure), HoldsKeyWait s → step s = .next t → t.reply = .err k →
    match k with
    | .stackOverflow => s.sp = 15 ∧ Executes s (fun i => ∃ a, i = .call a)
    | .stackUnderflow => s.sp = 0 ∧ Executes s (fun i => ∃ a, i = .ret a)
    | .addressOutOfRange =>
      (nextCommand s = .fetch ∨ nextCommand s = .clock) ∧ s.engine = .running ∧
        (4096 ≤ s.pc.toNat + 1 ∨
          Executes s (fun i =>
            (∃ x y n, i = .drw x y n ∧ 1 ≤ n.toNat ∧ 4096 ≤ s.i.toNat + n.toNat - 1) ∨
            (∃ x, i = .ldB x ∧ 4096 ≤ s.i.toNat + 2) ∨
            (∃ x, i = .ldMemVx x ∧ 4096 ≤ s.i.toNat + x.toNat) ∨
            (∃ x, i = .ldVxMem x ∧ 4096 ≤ s.i.toNat + x.toNat)))
    | .capacityExceeded => ∃ bytes, nextCommand s = .loadRom bytes ∧ 3584 < bytes.length
    | .invalidArgument => ∃ key p, nextCommand s = .setKeypress key p ∧ (key < 0 ∨ 15 < key)

/-- The record of a failure is never cleared, and holds the first one (R90, R199: the form of the record is the
model's, log entry 1). -/
def Obligations.FailureRecordIsNeverCleared : Prop :=
  ∀ s t : State, step s = .next t →
    (∀ k, s.failed = some k → t.failed = some k) ∧
    (∀ k, s.failed = none → t.reply = .err k → t.failed = some k) ∧
    (t.reply = .ok → t.failed = s.failed)

/-! ## The invariant of the machine's states -/

/-- Power-on meets the invariant. -/
def Obligations.PowerOnStateMeetsTheInvariant : Prop := Inv State.reset

/-- Every step, whatever the host's command and whatever word is fetched, keeps the invariant: memory in its
canonical form, `SP` in 0..15 with entry 15 of the stack never written, `PC` at most `0x10FE` and stacked
addresses at most `0x1000`, a key wait only on a held `LD Vx, K`, `rom_len` at most 3584, every failing reply
recorded (R13, R16, R17, R24, R89). The canonical form and the record of failures (log entry 1) are the model's. -/
def Obligations.EveryStepKeepsTheInvariant : Prop :=
  ∀ s t : State, Inv s → step s = .next t → Inv t

/-- R220: power-on, field by field. `fontTable` are the 80 bytes the model takes for FONT (G2, log entry 6);
their values are not part of this statement. The model's own fields `draws`, `reply`, `failed` and `pending`
are not part of it either. -/
def Obligations.PowerOnZeroesAllButFontAndPc : Prop :=
  let s := State.reset
  fontTable.length = 80 ∧
  (∀ k, k < 80 → s.mem.read (0x050 + k) = fontTable.getD k 0) ∧
  (∀ a, a < 4096 → (a < 0x050 ∨ 0x0A0 ≤ a) → s.mem.read a = 0) ∧
  (∀ r, s.reg r = 0) ∧ s.i = 0 ∧ s.sp = 0 ∧ s.pc = 0x200 ∧
  (∀ k, (h : k < 16) → s.stack[k] = 0) ∧
  s.opcode = 0 ∧ s.fieldX = 0 ∧ s.fieldY = 0 ∧ s.fieldN = 0 ∧ s.fieldNN = 0 ∧ s.fieldNNN = 0 ∧
  s.engine = .running ∧ (∀ k, s.keyDown k = false) ∧
  (∀ y x, (hy : y < 32) → (hx : x < 64) → s.fb[y][x] = false) ∧
  s.dt = 0 ∧ s.st = 0 ∧ s.romLen = 0

/-- R222: at launch, memory is the power-on image overlaid with the ROM at `0x200`. The command list that a launch
state carries is the model's (log entry 2). -/
def Obligations.LaunchMemoryIsRomOverPowerOnImage : Prop :=
  ∀ (rom : List Byte) (commands : List Command) (s : State), Launch rom commands s →
    Inv s ∧ NoFailure s ∧ (∀ k, k < rom.length → s.mem.read (0x200 + k) = rom.getD k 0) ∧
    (∀ a, (a < 0x200 ∨ 0x200 + rom.length ≤ a) → s.mem.read a = State.reset.mem.read a)

/-! ## Host commands (spec/46_host_operations.md) -/

/-- R174: both timers count down by one, floored at 0, in either engine state; no other state of the spec
changes. (The model's own reply and command list are not part of the statement.) -/
def Obligations.TickTimersCountsBothDownToZero : Prop :=
  ∀ s : State, nextCommand s = .tickTimers →
    ∃ t, step s = .next t ∧
      t.dt.toNat = s.dt.toNat - 1 ∧ t.st.toNat = s.st.toNat - 1 ∧
      t = { s with dt := t.dt, st := t.st, reply := t.reply, pending := t.pending }

/-- R175, R195: a key index in 0..15 sets that flag alone, and does not wake a waiting engine; an index outside
that range is refused with `InvalidArgument` and the keypad is unchanged. (How the result and the failure are
recorded is the model's: log entries 1, 2, 31.) -/
def Obligations.SetKeypressWritesOneFlagOrFails : Prop :=
  ∀ (s : State) (key : Int) (pressed : Bool), nextCommand s = .setKeypress key pressed →
    (∀ k : Nibble, key = (k.toNat : Int) →
      ∃ t, step s = .next t ∧ t.keyDown k = pressed ∧
        (∀ j, j ≠ k → t.keyDown j = s.keyDown j) ∧
        t = { s with key := t.key, reply := .ok, pending := s.pending.tail }) ∧
    ((key < 0 ∨ 15 < key) →
      ∃ t, step s = .next t ∧ FailsWith .invalidArgument { s with pending := s.pending.tail } t)

/-- R194: a ROM of more than 3584 bytes is refused with `CapacityExceeded`, memory left unmodified. (How the
failure is recorded is the model's: log entries 1, 2, 31.) -/
def Obligations.LoadRomTooLargeFailsAtomically : Prop :=
  ∀ (s : State) (bytes : List Byte), nextCommand s = .loadRom bytes → 4096 - 0x200 < bytes.length →
    ∃ t, step s = .next t ∧ FailsWith .capacityExceeded { s with pending := s.pending.tail } t

/-- R172 with decision D24 (log entry 21): a ROM that fits is copied to `0x200` and up, every other byte of
memory and every register keeps its value, and the length is recorded. -/
def Obligations.LoadRomWritesExactlyItsBytes : Prop :=
  ∀ (s : State) (bytes : List Byte), MemoryCanonical s → nextCommand s = .loadRom bytes →
    bytes.length ≤ 3584 →
    ∃ t, step s = .next t ∧
      (∀ k, k < bytes.length → t.mem.read (0x200 + k) = bytes.getD k 0) ∧
      (∀ a, (a < 0x200 ∨ 0x200 + bytes.length ≤ a) → t.mem.read a = s.mem.read a) ∧
      t = { s with mem := t.mem, romLen := bytes.length, reply := .ok, pending := s.pending.tail }

/-- R221 (90_conflicts.md C2, decisions D16, D17: log entry 13): `Reset()` restores every register, the stack,
both timers, the framebuffer, the decoded fields and `Running`, in either engine state, and leaves memory, the
keypad and `rom_len`; the model's own `draws` and `failed` are left too. -/
def Obligations.ResetRestoresRegistersAndKeepsMemory : Prop :=
  ∀ s : State, nextCommand s = .reset →
    step s = .next { State.reset with
      mem := s.mem
      key := s.key
      romLen := s.romLen
      draws := s.draws
      failed := s.failed
      pending := s.pending.tail }

/-- R179: the framebuffer accessor gives 2048 pixels, row-major. -/
def Obligations.FramebufferExportIsRowMajor : Prop :=
  ∀ s : State, (hostFramebuffer s).length = 2048 ∧
    ∀ y x, (hy : y < 32) → (hx : x < 64) → (hostFramebuffer s)[y * 64 + x]? = some s.fb[y][x]

/-! ## Who writes what: whole-machine rules over every command and every instruction -/

/-- `I` is written only by `LD I, addr`, `ADD I, Vx`, `LD F, Vx` (R15), the framebuffer only by `CLS` and `DRW`
(R21, 90_conflicts.md C6), the engine state only by `LD Vx, K` (R19), a wait ending through the held word (D15, log
entry 12); reset writes all three. -/
def Obligations.IndexFramebufferAndEngineHaveFewWriters : Prop :=
  ∀ s t : State, step s = .next t → nextCommand s ≠ .reset →
    (t.i ≠ s.i →
      Executes s (fun i => (∃ a, i = .ldI a) ∨ (∃ x, i = .addI x) ∨ (∃ x, i = .ldF x))) ∧
    (t.fb ≠ s.fb → Executes s (fun i => (∃ a, i = .cls a) ∨ (∃ x y n, i = .drw x y n))) ∧
    (t.engine ≠ s.engine → Executes s (fun i => ∃ x, i = .ldVxK x))

/-- R16, R17: `SP` is written only by `CALL`, `RET` and reset, a stack entry only by `CALL` and reset, and a
`CALL` writes no entry but the one at `SP`. That `RET` leaves the stack as it is rests on D34 (log entry 33). -/
def Obligations.OnlyCallAndRetMoveTheStack : Prop :=
  ∀ s t : State, StackSound s → step s = .next t →
    (t.sp ≠ s.sp → nextCommand s = .reset ∨
      Executes s (fun i => (∃ a, i = .call a) ∨ (∃ a, i = .ret a))) ∧
    (∀ k, (h : k < 16) → t.stack[k] ≠ s.stack[k] → nextCommand s = .reset ∨
      (k = s.sp.toNat ∧ Executes s (fun i => ∃ a, i = .call a)))

/-- R22, R23: `DT` is written only by `LD DT, Vx`, `TickTimers()` and reset, `ST` only by `LD ST, Vx`,
`TickTimers()` and reset; the instruction clock decrements neither. -/
def Obligations.OnlyTimerWritesChangeTheTimers : Prop :=
  ∀ s t : State, step s = .next t →
    (t.dt ≠ s.dt → nextCommand s = .tickTimers ∨ nextCommand s = .reset ∨
      Executes s (fun i => ∃ x, i = .ldDtVx x ∧ t.dt = s.reg x)) ∧
    (t.st ≠ s.st → nextCommand s = .tickTimers ∨ nextCommand s = .reset ∨
      Executes s (fun i => ∃ x, i = .ldStVx x ∧ t.st = s.reg x))

/-- R20, R24: the keypad flags are written only by `SetKeypress`, `rom_len` only by `LoadROM`; `Reset()` leaves
both (decision D16, log entry 13). -/
def Obligations.OnlyTheHostWritesKeypadAndRomLength : Prop :=
  ∀ s t : State, step s = .next t →
    (t.key ≠ s.key → ∃ k p, nextCommand s = .setKeypress k p) ∧
    (t.romLen ≠ s.romLen → ∃ bytes, nextCommand s = .loadRom bytes ∧ t.romLen = bytes.length)

/-- R12: a register that no instruction of the step names as destination or flag keeps its value; in particular
`VF` is written as a side effect by exactly six instructions. That `OR`, `AND`, `XOR` and `ADD I` leave `VF`
alone is decision D9 (log entry 17). -/
def Obligations.RegistersChangeOnlyAsDestinationOrFlag : Prop :=
  ∀ (s t : State) (r : Nibble), step s = .next t → t.reg r ≠ s.reg r →
    nextCommand s = .reset ∨ Executes s (fun i => writesReg r i)

/-- R25, R47: `exec` of an instruction changes no byte outside the bytes it stores to (the address as the meaning
computes it, R146), and nothing at all of memory where the instruction stores nothing; of the commands, only
`LoadROM` and the `Clock()` of a store change memory. -/
def Obligations.MemoryChangesOnlyWhereStored : Prop :=
  (∀ (i : Instr) (s t : State), MemoryCanonical s → exec i s = .next t →
    (∀ a n, storeSpan s i = some (a, n) →
      ∀ b, (b < a ∨ a + n ≤ b) → t.mem.read b = s.mem.read b) ∧
    (storeSpan s i = none → ∀ b, t.mem.read b = s.mem.read b)) ∧
  (∀ s t : State, step s = .next t → t.mem ≠ s.mem →
    (∃ bytes, nextCommand s = .loadRom bytes) ∨ Executes s (fun i => storeSpan s i ≠ none))

/-- R51: a block store over the next instruction is seen by the very next fetch: the word fetched is `V0`, `V1`. -/
def Obligations.StoredBytesAreFetchedNext : Prop :=
  ∀ (s : State) (x : Nibble), MemoryCanonical s → 1 ≤ x.toNat → s.i.toNat + x.toNat < 4096 →
    ∃ t, exec (.ldMemVx x) s = .next t ∧
      fetchWord { t with pc := s.i } = s.reg 0 ++ s.reg 1

/-! ## Control transfer (spec/41_control_flow.md). On entry `PC = p + 2`. -/

/-- R100, R102: `NOP` changes nothing beyond the fetch; `JP` sets `PC` to `NNN` and nothing else. -/
def Obligations.NopChangesNothingAndJumpSetsPc : Prop :=
  ∀ (w : Word) (nnn : Addr) (s : State), exec (.nop w) s = .next s ∧
    ∃ t, exec (.jp nnn) s = .next t ∧ t.pc.toNat = nnn.toNat ∧ t = { s with pc := t.pc }

/-- R104 with decision D23 (log entry 19): `PC <- NNN + V0`, not reduced. -/
def Obligations.JumpWithOffsetAddsV0 : Prop :=
  ∀ (nnn : Addr) (s : State), ∃ t, exec (.jpV0 nnn) s = .next t ∧
    t.pc.toNat = nnn.toNat + (s.reg 0).toNat ∧ t = { s with pc := t.pc }

/-- R103: `CALL` below the limit pushes `PC` at `SP`, increments `SP`, and jumps. -/
def Obligations.CallPushesReturnAddressAndJumps : Prop :=
  ∀ (nnn : Addr) (s : State), s.sp.toNat < 15 →
    ∃ t, exec (.call nnn) s = .next t ∧ t.pc.toNat = nnn.toNat ∧ t.sp.toNat = s.sp.toNat + 1 ∧
      (∀ k, (h : k < 16) → t.stack[k] = if k = s.sp.toNat then s.pc else s.stack[k]) ∧
      t = { s with pc := t.pc, sp := t.sp, stack := t.stack }

/-- R101 (90_conflicts.md C1): `RET` decrements `SP` and then reads the entry at the new `SP`, which is not
cleared (D34, log entry 33). -/
def Obligations.ReturnPopsTheReturnAddress : Prop :=
  ∀ (a : Nibble) (s : State), s.sp ≠ 0 → (hs : s.sp.toNat ≤ 15) →
    ∃ t, exec (.ret a) s = .next t ∧ t.sp.toNat = s.sp.toNat - 1 ∧
      t.pc = s.stack[s.sp.toNat - 1]'(by omega) ∧ t = { s with pc := t.pc, sp := t.sp }

/-- R191, R192: `CALL` with `SP = 15` fails with `StackOverflow`, `RET` with `SP = 0` with `StackUnderflow`; the
handler leaves `PC` and stack unchanged (the handler, not the whole `Clock()`: 90_conflicts.md C8, decision D5;
the record of the failure is the model's: log entry 1). -/
def Obligations.StackLimitsFailWithNothingChanged : Prop :=
  ∀ (nnn : Addr) (a : Nibble) (s : State),
    (s.sp = 15 → ∃ t, exec (.call nnn) s = .next t ∧ FailsWith .stackOverflow s t) ∧
    (s.sp = 0 → ∃ t, exec (.ret a) s = .next t ∧ FailsWith .stackUnderflow s t)

/-- R103's round trip (the source's §8): `CALL` and then `RET`, whatever happened to other state in between,
restores `PC` to the address after the `CALL` and `SP` to its value before it. -/
def Obligations.CallThenReturnRestoresPcAndSp : Prop :=
  ∀ (nnn : Addr) (a : Nibble) (s t u : State), s.sp.toNat < 15 → exec (.call nnn) s = .next t →
    u.sp = t.sp → u.stack = t.stack →
    ∃ r, exec (.ret a) u = .next r ∧ r.pc = s.pc ∧ r.sp = s.sp

/-- R105, R106: skip on (in)equality with the immediate; `PC` advances by 2 more, or stays. -/
def Obligations.SkipsOnImmediate : Prop :=
  ∀ (x : Nibble) (nn : Byte) (s : State),
    exec (.seImm x nn) s = .next { s with pc := if s.reg x = nn then s.pc + 2 else s.pc } ∧
    exec (.sneImm x nn) s = .next { s with pc := if s.reg x = nn then s.pc else s.pc + 2 }

/-- R107, R108 (that `N` is ignored is decision D3, log entry 5): skip on (in)equality of two registers. -/
def Obligations.SkipsOnRegisters : Prop :=
  ∀ (x y n : Nibble) (s : State),
    exec (.seReg x y n) s = .next { s with pc := if s.reg x = s.reg y then s.pc + 2 else s.pc } ∧
    exec (.sneReg x y n) s = .next { s with pc := if s.reg x = s.reg y then s.pc else s.pc + 2 }

/-! ## Load, arithmetic, logic, shift, random (spec/42_alu.md) -/

/-- R120, R121, R122, R140: load immediate, add immediate (modulo 256, no flag), register copy, where only `Vx`
changes, and load of the address register, where only `I` changes. -/
def Obligations.ImmediateLoadsAddAndCopy : Prop :=
  ∀ (x y : Nibble) (nn : Byte) (nnn : Addr) (s : State),
    (∃ t, exec (.ldImm x nn) s = .next t ∧ t.reg x = nn ∧ ChangesReg x s t) ∧
    (∃ t, exec (.addImm x nn) s = .next t ∧
      (t.reg x).toNat = ((s.reg x).toNat + nn.toNat) % 256 ∧ ChangesReg x s t) ∧
    (∃ t, exec (.ldReg x y) s = .next t ∧ t.reg x = s.reg y ∧ ChangesReg x s t) ∧
    (∃ t, exec (.ldI nnn) s = .next t ∧ t.i.toNat = nnn.toNat ∧ t = { s with i := t.i })

/-- R123, R124, R125: bitwise or, and, exclusive or, bit by bit. That `VF` is not written is decision D9 (log
entry 17). -/
def Obligations.LogicIsBitwise : Prop :=
  ∀ (x y : Nibble) (s : State),
    (∃ t, exec (.orReg x y) s = .next t ∧ ChangesReg x s t ∧
      ∀ k, (t.reg x).getLsbD k = ((s.reg x).getLsbD k || (s.reg y).getLsbD k)) ∧
    (∃ t, exec (.andReg x y) s = .next t ∧ ChangesReg x s t ∧
      ∀ k, (t.reg x).getLsbD k = ((s.reg x).getLsbD k && (s.reg y).getLsbD k)) ∧
    (∃ t, exec (.xorReg x y) s = .next t ∧ ChangesReg x s t ∧
      ∀ k, (t.reg x).getLsbD k = ((s.reg x).getLsbD k ^^ (s.reg y).getLsbD k))

/-- R126: `Vx <- sum mod 256`, `VF <- 1` iff the sum is above 255. For `X = F` the result survives in `VF`:
decision D8 (R88, log entry 9). -/
def Obligations.AddRegistersSetsCarry : Prop :=
  ∀ (x y : Nibble) (s : State), ∃ t, exec (.addReg x y) s = .next t ∧ ChangesRegAndFlag x s t ∧
    (t.reg x).toNat = ((s.reg x).toNat + (s.reg y).toNat) % 256 ∧
    (x ≠ 0xF → t.reg 0xF = if (s.reg x).toNat + (s.reg y).toNat > 255 then 1 else 0)

/-- R127, R129: `Vx <- (Vx − Vy) mod 256` with `VF <- 1` iff `Vx ≥ Vy`, and the reverse. For `X = F` the result
survives in `VF`: decision D8 (log entry 9). -/
def Obligations.SubtractSetsNotBorrow : Prop :=
  ∀ (x y : Nibble) (s : State),
    (∃ t, exec (.subReg x y) s = .next t ∧ ChangesRegAndFlag x s t ∧
      (t.reg x).toNat = ((s.reg x).toNat + 256 - (s.reg y).toNat) % 256 ∧
      (x ≠ 0xF → t.reg 0xF = if (s.reg x).toNat ≥ (s.reg y).toNat then 1 else 0)) ∧
    (∃ t, exec (.subnReg x y) s = .next t ∧ ChangesRegAndFlag x s t ∧
      (t.reg x).toNat = ((s.reg y).toNat + 256 - (s.reg x).toNat) % 256 ∧
      (x ≠ 0xF → t.reg 0xF = if (s.reg y).toNat ≥ (s.reg x).toNat then 1 else 0))

/-- R128, R130: shifts by one, zero fill; `VF` is the bit shifted out, old bit 0 or old bit 7. For `X = F` the
result survives in `VF`: decision D8 (log entry 9). `Y` is ignored: decision D10 (log entry 25). -/
def Obligations.ShiftsReportTheBitShiftedOut : Prop :=
  ∀ (x y : Nibble) (s : State),
    (∃ t, exec (.shr x y) s = .next t ∧ ChangesRegAndFlag x s t ∧
      (t.reg x).toNat = (s.reg x).toNat / 2 ∧
      (x ≠ 0xF → (t.reg 0xF).toNat = (s.reg x).toNat % 2)) ∧
    (∃ t, exec (.shl x y) s = .next t ∧ ChangesRegAndFlag x s t ∧
      (t.reg x).toNat = (s.reg x).toNat * 2 % 256 ∧
      (x ≠ 0xF → (t.reg 0xF).toNat = (s.reg x).toNat / 128))

/-- R131 with decision D25: `Vx` is the byte drawn, masked. The byte is a free value (log entry 3): the statement
holds whatever it is. One byte is consumed, whatever the mask. `VF` is left alone: D9 (log entry 17). -/
def Obligations.RandomByteIsMaskedAndDrawnOnce : Prop :=
  ∀ (x : Nibble) (nn : Byte) (s : State), ∃ t, exec (.rnd x nn) s = .next t ∧
    t.reg x = Config.rngByte s.draws &&& nn ∧ t.draws = s.draws + 1 ∧
    (∀ r, r ≠ x → t.reg r = s.reg r) ∧ t = { s with v := t.v, draws := t.draws }

/-! ## Address register and memory (spec/43_index_memory.md) -/

/-- R141, R142 with decisions D9, D12, D22 (log entries 10, 17, 19): `I <- (I + Vx) mod 65536`, and the address of
the glyph of the low nibble of `Vx`; `VF` and every other register is left alone. -/
def Obligations.AddIndexAndFontAddress : Prop :=
  ∀ (x : Nibble) (s : State),
    (∃ t, exec (.addI x) s = .next t ∧ t.i.toNat = (s.i.toNat + (s.reg x).toNat) % 65536 ∧
      t = { s with i := t.i }) ∧
    (∃ t, exec (.ldF x) s = .next t ∧ t.i.toNat = 0x050 + 5 * ((s.reg x).toNat % 16) ∧
      t = { s with i := t.i })

/-- R143: the three decimal digits at `I`, `I + 1`, `I + 2`, every other byte and every register unchanged. -/
def Obligations.StoreDecimalDigits : Prop :=
  ∀ (x : Nibble) (s : State), MemoryCanonical s → s.i.toNat + 2 < 4096 →
    ∃ t, exec (.ldB x) s = .next t ∧
      (t.mem.read (effAddr s 0)).toNat = (s.reg x).toNat / 100 ∧
      (t.mem.read (effAddr s 1)).toNat = (s.reg x).toNat / 10 % 10 ∧
      (t.mem.read (effAddr s 2)).toNat = (s.reg x).toNat % 10 ∧
      (∀ a, (a < effAddr s 0 ∨ effAddr s 2 < a) → t.mem.read a = s.mem.read a) ∧
      MemoryCanonical t ∧ t = { s with mem := t.mem }

/-- R144: `V0`..`Vx` at `I`..`I + X`, every other byte and every register unchanged. -/
def Obligations.StoreRegistersUpToVx : Prop :=
  ∀ (x : Nibble) (s : State), MemoryCanonical s → s.i.toNat + x.toNat < 4096 →
    ∃ t, exec (.ldMemVx x) s = .next t ∧
      (∀ r : Nibble, r.toNat ≤ x.toNat → t.mem.read (effAddr s r.toNat) = s.reg r) ∧
      (∀ a, (a < effAddr s 0 ∨ effAddr s x.toNat < a) → t.mem.read a = s.mem.read a) ∧
      MemoryCanonical t ∧ t = { s with mem := t.mem }

/-- R145: `V0`..`Vx` loaded from `I`..`I + X`, every other register, `I` and memory unchanged. -/
def Obligations.LoadRegistersUpToVx : Prop :=
  ∀ (x : Nibble) (s : State), s.i.toNat + x.toNat < 4096 →
    ∃ t, exec (.ldVxMem x) s = .next t ∧
      (∀ r : Nibble, t.reg r =
        if r.toNat ≤ x.toNat then s.mem.read (effAddr s r.toNat) else s.reg r) ∧
      t = { s with v := t.v }

/-- R145's round trip (the source's §8): a block store and then a block load, with `I` and the count unchanged,
whatever happened to the registers in between, restores `V0`..`Vx`. -/
def Obligations.BlockStoreThenLoadRestoresRegisters : Prop :=
  ∀ (x : Nibble) (s t u : State), MemoryCanonical s → s.i.toNat + x.toNat < 4096 →
    exec (.ldMemVx x) s = .next t → u.mem = t.mem → u.i = s.i →
    ∃ r, exec (.ldVxMem x) u = .next r ∧ ∀ j : Nibble, j.toNat ≤ x.toNat → r.reg j = s.reg j

/-- R45 with decision D6 (log entry 8): the four memory instructions fail with `AddressOutOfRange` when the last
byte they would touch is at or beyond 4096, and have then changed nothing. -/
def Obligations.AccessBeyondMemoryFailsPrecisely : Prop :=
  ∀ (x y n : Nibble) (s : State),
    (4096 ≤ s.i.toNat + 2 → ∃ t, exec (.ldB x) s = .next t ∧ FailsWith .addressOutOfRange s t) ∧
    (4096 ≤ s.i.toNat + x.toNat →
      ∃ t, exec (.ldMemVx x) s = .next t ∧ FailsWith .addressOutOfRange s t) ∧
    (4096 ≤ s.i.toNat + x.toNat →
      ∃ t, exec (.ldVxMem x) s = .next t ∧ FailsWith .addressOutOfRange s t) ∧
    (1 ≤ n.toNat → 4096 ≤ s.i.toNat + n.toNat - 1 →
      ∃ t, exec (.drw x y n) s = .next t ∧ FailsWith .addressOutOfRange s t)

/-! ## Display (spec/44_display.md) -/

/-- R150: every pixel off, nothing else changed. -/
def Obligations.ClearTurnsEveryPixelOff : Prop :=
  ∀ (a : Nibble) (s : State), ∃ t, exec (.cls a) s = .next t ∧
    (∀ y x, (hy : y < 32) → (hx : x < 64) → t.fb[y][x] = false) ∧ t = { s with fb := t.fb }

/-- R151, pixel by pixel (the bit order is G3, log entry 7; `N = 0` is D31, log entry 22): a pixel is inverted
exactly where a sprite bit 1 lies over it, with wraparound; `VF` is 1 iff some pixel went from on to off; no
other register, no byte of memory and not `I` changes. The meaning draws pixel by pixel; this is its closed
form. -/
def Obligations.DrawInvertsExactlyTheSpritePixels : Prop :=
  ∀ (x y n : Nibble) (s : State), (n = 0 ∨ s.i.toNat + n.toNat - 1 < 4096) →
    ∃ t, exec (.drw x y n) s = .next t ∧
      (∀ py px, (hy : py < 32) → (hx : px < 64) →
        (t.fb[py][px] = !s.fb[py][px] ↔ spriteOver s x y n px py) ∧
        (t.fb[py][px] = s.fb[py][px] ↔ ¬ spriteOver s x y n px py)) ∧
      (t.reg 0xF = 1 ↔ ∃ py px, ∃ (hy : py < 32) (hx : px < 64),
        s.fb[py][px] = true ∧ spriteOver s x y n px py) ∧
      (t.reg 0xF = 0 ∨ t.reg 0xF = 1) ∧
      (∀ r, r ≠ 0xF → t.reg r = s.reg r) ∧ t = { s with v := t.v, fb := t.fb }

/-- R151's property (the source's §8): the same sprite drawn again at the same position restores the framebuffer,
and `VF` is then 1 iff the first draw turned some pixel on. The registers named are not `VF`, which the first draw
writes. -/
def Obligations.DrawingTwiceRestoresTheFramebuffer : Prop :=
  ∀ (x y n : Nibble) (s t : State), (n = 0 ∨ s.i.toNat + n.toNat - 1 < 4096) → x ≠ 0xF → y ≠ 0xF →
    exec (.drw x y n) s = .next t →
    ∃ u, exec (.drw x y n) t = .next u ∧ u.fb = s.fb ∧
      (u.reg 0xF = 1 ↔ ∃ py px, ∃ (hy : py < 32) (hx : px < 64),
        s.fb[py][px] = false ∧ t.fb[py][px] = true)

/-! ## Keypad and timers (spec/45_keypad_timers.md) -/

/-- R160, R161 with decision D11 (log entry 10): skip on the flag of the key that the low nibble of `Vx` names. -/
def Obligations.SkipsOnKey : Prop :=
  ∀ (x k : Nibble) (s : State), k.toNat = (s.reg x).toNat % 16 →
    exec (.skp x) s = .next { s with pc := if s.keyDown k = true then s.pc + 2 else s.pc } ∧
    exec (.sknp x) s = .next { s with pc := if s.keyDown k = true then s.pc else s.pc + 2 }

/-- R162 with decisions D13, D15 (log entries 11, 12): with a key pressed, `Vx` takes the lowest pressed key and
the engine is `Running`; with none, the engine waits and no register is written. `PC` is not written. -/
def Obligations.KeyWaitTakesLowestKeyOrSuspends : Prop :=
  ∀ (x : Nibble) (s : State),
    (∀ k : Nibble, s.keyDown k = true → (∀ j : Nibble, j.toNat < k.toNat → s.keyDown j = false) →
      ∃ t, exec (.ldVxK x) s = .next t ∧ (t.reg x).toNat = k.toNat ∧
        (∀ r, r ≠ x → t.reg r = s.reg r) ∧ t = { s with v := t.v, engine := .running }) ∧
    ((∀ k, s.keyDown k = false) →
      exec (.ldVxK x) s = .next { s with engine := .awaitingKey })

/-- R164, R165, R166: reading the delay timer into `Vx`, setting either timer from `Vx`. -/
def Obligations.TimerInstructionsMoveTheirRegister : Prop :=
  ∀ (x : Nibble) (s : State),
    (∃ t, exec (.ldVxDt x) s = .next t ∧ t.reg x = s.dt ∧ ChangesReg x s t) ∧
    exec (.ldDtVx x) s = .next { s with dt := s.reg x } ∧
    exec (.ldStVx x) s = .next { s with st := s.reg x }

end
end

