-- ==== Sys2Proof/Laws/Memory.lean ====
section
/-! SUPPORT. Memory: read after write, and the canonical form. -/

namespace Sys2Proof.Machine

namespace Memory

/-- An entry with a rising-order tail: every later entry is at a higher address. -/
theorem read_of_lt_head {m : Memory} {a : Nat} (h : ∀ c ∈ m, a < c.1) : read m a = powerOnByte a := by
  induction m with
  | nil => rfl
  | cons c m ih =>
    obtain ⟨k, b⟩ := c
    have hk : a < k := h (k, b) (by simp)
    have hm : ∀ c ∈ m, a < c.1 := fun c hc => h c (by simp [hc])
    simp [read, Nat.ne_of_lt hk, ih hm]

theorem read_consByte {m : Memory} {a : Nat} (h : ∀ c ∈ m, a < c.1) (b : Byte) (a' : Nat) :
    read (consByte a b m) a' = if a' = a then b else read m a' := by
  unfold consByte
  split
  next hb =>
    split
    next ha => rw [ha, read_of_lt_head h, hb]
    next => rfl
  next => simp [read]

/-- One write, read at any address, in a memory whose addresses rise. -/
theorem read_write {m : Memory} (hm : m.Pairwise (fun c d => c.1 < d.1)) (a : Nat) (b : Byte) (a' : Nat) :
    read (write m a b) a' = if a' = a then b else read m a' := by
  induction m with
  | nil => exact read_consByte (by simp) b a'
  | cons c m ih =>
    obtain ⟨k, e⟩ := c
    have hhead : ∀ d ∈ m, k < d.1 := (List.pairwise_cons.1 hm).1
    have htail := (List.pairwise_cons.1 hm).2
    unfold write
    split
    next hlt =>
      refine read_consByte ?_ b a'
      intro d hd
      rcases List.mem_cons.1 hd with rfl | hd
      · exact hlt
      · exact Nat.lt_trans hlt (hhead d hd)
    next hlt =>
      split
      next heq =>
        subst heq
        rw [read_consByte hhead]
        by_cases h : a' = a <;> simp [read, h]
      next hne =>
        by_cases h : a' = k
        · have hka : k ≠ a := fun e => hne e.symm
          simp [read, h, hka]
        · simp [read, h, ih htail]

/-- Every address listed after a write was listed before or is the one written. -/
theorem mem_write {m : Memory} {a : Nat} {b : Byte} {c : Host.Cell} (h : c ∈ write m a b) :
    c ∈ m ∨ (c = (a, b) ∧ b ≠ powerOnByte a) := by
  have cons_mem : ∀ {m : Memory} {c : Host.Cell}, c ∈ consByte a b m →
      c ∈ m ∨ (c = (a, b) ∧ b ≠ powerOnByte a) := by
    intro m c h
    unfold consByte at h
    split at h
    next => exact .inl h
    next hb =>
      rcases List.mem_cons.1 h with rfl | h
      · exact .inr ⟨rfl, hb⟩
      · exact .inl h
  induction m with
  | nil => exact cons_mem h
  | cons d m ih =>
    obtain ⟨k, e⟩ := d
    unfold write at h
    split at h
    next => exact cons_mem h
    next =>
      split at h
      next =>
        rcases cons_mem h with h | h
        · exact .inl (by simp [h])
        · exact .inr h
      next =>
        rcases List.mem_cons.1 h with rfl | h
        · exact .inl (by simp)
        · rcases ih h with h | h
          · exact .inl (by simp [h])
          · exact .inr h

theorem pairwise_write {m : Memory} (hm : m.Pairwise (fun c d => c.1 < d.1)) (a : Nat) (b : Byte) :
    (write m a b).Pairwise (fun c d => c.1 < d.1) := by
  have cons_pw : ∀ {m : Memory}, m.Pairwise (fun c d => c.1 < d.1) → (∀ c ∈ m, a < c.1) →
      (consByte a b m).Pairwise (fun c d => c.1 < d.1) := by
    intro m hm h
    unfold consByte
    split
    · exact hm
    · exact List.pairwise_cons.2 ⟨h, hm⟩
  induction m with
  | nil => exact cons_pw hm (by simp)
  | cons d m ih =>
    obtain ⟨k, e⟩ := d
    have hhead : ∀ d ∈ m, k < d.1 := (List.pairwise_cons.1 hm).1
    have htail := (List.pairwise_cons.1 hm).2
    unfold write
    split
    next hlt =>
      refine cons_pw hm ?_
      intro d hd
      rcases List.mem_cons.1 hd with rfl | hd
      · exact hlt
      · exact Nat.lt_trans hlt (hhead d hd)
    next hlt =>
      split
      next heq => exact cons_pw htail (fun c hc => heq ▸ hhead c hc)
      next hne =>
        refine List.pairwise_cons.2 ⟨?_, ih htail⟩
        intro c hc
        rcases mem_write hc with hc | ⟨rfl, _⟩
        · exact hhead c hc
        · exact Nat.lt_of_le_of_ne (Nat.le_of_not_lt hlt) (fun e => hne e.symm)

theorem wf_nil : Memory.wf [] := by simp [Memory.wf]

/-- A write below 4096 keeps the canonical form. -/
theorem wf_write {m : Memory} (hm : m.wf) {a : Nat} (ha : a < Config.memSize) (b : Byte) :
    (write m a b).wf := by
  refine ⟨pairwise_write hm.1 a b, ?_⟩
  intro c hc
  rcases mem_write hc with hc | ⟨rfl, hb⟩
  · exact hm.2 c hc
  · exact ⟨ha, hb⟩

/-- Writing consecutive bytes, all below 4096, keeps the canonical form. -/
theorem wf_writeBytes {m : Memory} (hm : m.wf) {a : Nat} {bs : List Byte}
    (ha : a + bs.length ≤ Config.memSize) : (writeBytes m a bs).wf := by
  induction bs generalizing m a with
  | nil => exact hm
  | cons b bs ih =>
    simp only [List.length_cons] at ha
    exact ih (wf_write hm (by omega) b) (by omega)

/-- Consecutive writes, read at any address. -/
theorem read_writeBytes {m : Memory} (hm : m.Pairwise (fun c d => c.1 < d.1)) (a : Nat) (bs : List Byte)
    (a' : Nat) :
    read (writeBytes m a bs) a' =
      if a ≤ a' ∧ a' < a + bs.length then bs.getD (a' - a) 0 else read m a' := by
  induction bs generalizing m a with
  | nil =>
    have h : ¬ (a ≤ a' ∧ a' < a + ([] : List Byte).length) := by simp
    rw [if_neg h, writeBytes]
  | cons b bs ih =>
    rw [writeBytes, ih (pairwise_write hm a b), read_write hm]
    simp only [List.length_cons]
    by_cases h1 : a' = a
    · subst h1
      simp
    · by_cases h2 : a + 1 ≤ a' ∧ a' < a + 1 + bs.length
      · have h3 : a ≤ a' ∧ a' < a + (bs.length + 1) := by omega
        obtain ⟨j, rfl⟩ : ∃ j, a' = a + 1 + j := ⟨a' - (a + 1), by omega⟩
        have h4 : a + 1 + j - a = j + 1 := by omega
        rw [if_pos h2, if_pos h3, h4, Nat.add_sub_cancel_left]
        simp
      · have h3 : ¬ (a ≤ a' ∧ a' < a + (bs.length + 1)) := by omega
        rw [if_neg h2, if_neg h3, if_neg h1]

/-- Two memories in canonical form that read alike everywhere are the same list. -/
theorem ext_of_read {m n : Memory} (hm : m.wf) (hn : n.wf) (h : ∀ a, read m a = read n a) : m = n := by
  induction m generalizing n with
  | nil =>
    cases n with
    | nil => rfl
    | cons d n =>
      have := h d.1
      exact absurd (by simpa [read] using this.symm) (hn.2 d (by simp)).2
  | cons c m ih =>
    obtain ⟨k, b⟩ := c
    have hkm : ∀ d ∈ m, k < d.1 := (List.pairwise_cons.1 hm.1).1
    have hmt : Memory.wf m := ⟨(List.pairwise_cons.1 hm.1).2, fun c hc => hm.2 c (by simp [hc])⟩
    have hb : b ≠ powerOnByte k := (hm.2 (k, b) (by simp)).2
    cases n with
    | nil => exact absurd (by simpa [read] using h k) hb
    | cons d n =>
      obtain ⟨l, e⟩ := d
      have hln : ∀ d ∈ n, l < d.1 := (List.pairwise_cons.1 hn.1).1
      have hnt : Memory.wf n := ⟨(List.pairwise_cons.1 hn.1).2, fun c hc => hn.2 c (by simp [hc])⟩
      have he : e ≠ powerOnByte l := (hn.2 (l, e) (by simp)).2
      have hkl : k = l := by
        rcases Nat.lt_trichotomy k l with hlt | heq | hgt
        · have hk := h k
          rw [read, if_pos rfl, read_of_lt_head] at hk
          · exact absurd hk hb
          · intro c hc
            rcases List.mem_cons.1 hc with rfl | hc
            · exact hlt
            · exact Nat.lt_trans hlt (hln c hc)
        · exact heq
        · have hl := h l
          rw [read_of_lt_head, read, if_pos rfl] at hl
          · exact absurd hl.symm he
          · intro c hc
            rcases List.mem_cons.1 hc with rfl | hc
            · exact hgt
            · exact Nat.lt_trans hgt (hkm c hc)
      subst hkl
      have hbe : b = e := by simpa [read] using h k
      subst hbe
      have hrest : ∀ a, read m a = read n a := by
        intro a
        by_cases ha : a = k
        · subst ha
          rw [read_of_lt_head hkm, read_of_lt_head hln]
        · simpa [read, ha] using h a
      rw [ih hmt hnt hrest]

end Memory

end Sys2Proof.Machine
end

