-- ==== Sys2Proof/Laws/State.lean ====
section
/-! SUPPORT. The small lemmas of the state's updates: for each update, what every field reads after it.
Citing them, no later proof unfolds a record update. -/

namespace Sys2Proof.Machine

variable (s : State)

/-! ### `State.setReg` -/

@[simp] theorem State.setReg_mem (x : Nibble) (b : Byte) : (s.setReg x b).mem = s.mem := rfl
@[simp] theorem State.setReg_v (x : Nibble) (b : Byte) : (s.setReg x b).v = s.v.set x.toNat b x.isLt := rfl
@[simp] theorem State.setReg_i (x : Nibble) (b : Byte) : (s.setReg x b).i = s.i := rfl
@[simp] theorem State.setReg_pc (x : Nibble) (b : Byte) : (s.setReg x b).pc = s.pc := rfl
@[simp] theorem State.setReg_sp (x : Nibble) (b : Byte) : (s.setReg x b).sp = s.sp := rfl
@[simp] theorem State.setReg_stack (x : Nibble) (b : Byte) : (s.setReg x b).stack = s.stack := rfl
@[simp] theorem State.setReg_opcode (x : Nibble) (b : Byte) : (s.setReg x b).opcode = s.opcode := rfl
@[simp] theorem State.setReg_engine (x : Nibble) (b : Byte) : (s.setReg x b).engine = s.engine := rfl
@[simp] theorem State.setReg_key (x : Nibble) (b : Byte) : (s.setReg x b).key = s.key := rfl
@[simp] theorem State.setReg_fb (x : Nibble) (b : Byte) : (s.setReg x b).fb = s.fb := rfl
@[simp] theorem State.setReg_dt (x : Nibble) (b : Byte) : (s.setReg x b).dt = s.dt := rfl
@[simp] theorem State.setReg_st (x : Nibble) (b : Byte) : (s.setReg x b).st = s.st := rfl
@[simp] theorem State.setReg_romLen (x : Nibble) (b : Byte) : (s.setReg x b).romLen = s.romLen := rfl
@[simp] theorem State.setReg_draws (x : Nibble) (b : Byte) : (s.setReg x b).draws = s.draws := rfl
@[simp] theorem State.setReg_reply (x : Nibble) (b : Byte) : (s.setReg x b).reply = s.reply := rfl
@[simp] theorem State.setReg_failed (x : Nibble) (b : Byte) : (s.setReg x b).failed = s.failed := rfl
@[simp] theorem State.setReg_pending (x : Nibble) (b : Byte) : (s.setReg x b).pending = s.pending := rfl

/-! ### `State.setI` -/

@[simp] theorem State.setI_mem (w : Word) : (s.setI w).mem = s.mem := rfl
@[simp] theorem State.setI_v (w : Word) : (s.setI w).v = s.v := rfl
@[simp] theorem State.setI_i (w : Word) : (s.setI w).i = w := rfl
@[simp] theorem State.setI_pc (w : Word) : (s.setI w).pc = s.pc := rfl
@[simp] theorem State.setI_sp (w : Word) : (s.setI w).sp = s.sp := rfl
@[simp] theorem State.setI_stack (w : Word) : (s.setI w).stack = s.stack := rfl
@[simp] theorem State.setI_opcode (w : Word) : (s.setI w).opcode = s.opcode := rfl
@[simp] theorem State.setI_engine (w : Word) : (s.setI w).engine = s.engine := rfl
@[simp] theorem State.setI_key (w : Word) : (s.setI w).key = s.key := rfl
@[simp] theorem State.setI_fb (w : Word) : (s.setI w).fb = s.fb := rfl
@[simp] theorem State.setI_dt (w : Word) : (s.setI w).dt = s.dt := rfl
@[simp] theorem State.setI_st (w : Word) : (s.setI w).st = s.st := rfl
@[simp] theorem State.setI_romLen (w : Word) : (s.setI w).romLen = s.romLen := rfl
@[simp] theorem State.setI_draws (w : Word) : (s.setI w).draws = s.draws := rfl
@[simp] theorem State.setI_reply (w : Word) : (s.setI w).reply = s.reply := rfl
@[simp] theorem State.setI_failed (w : Word) : (s.setI w).failed = s.failed := rfl
@[simp] theorem State.setI_pending (w : Word) : (s.setI w).pending = s.pending := rfl

/-! ### `State.setPc` -/

@[simp] theorem State.setPc_mem (w : Word) : (s.setPc w).mem = s.mem := rfl
@[simp] theorem State.setPc_v (w : Word) : (s.setPc w).v = s.v := rfl
@[simp] theorem State.setPc_i (w : Word) : (s.setPc w).i = s.i := rfl
@[simp] theorem State.setPc_pc (w : Word) : (s.setPc w).pc = w := rfl
@[simp] theorem State.setPc_sp (w : Word) : (s.setPc w).sp = s.sp := rfl
@[simp] theorem State.setPc_stack (w : Word) : (s.setPc w).stack = s.stack := rfl
@[simp] theorem State.setPc_opcode (w : Word) : (s.setPc w).opcode = s.opcode := rfl
@[simp] theorem State.setPc_engine (w : Word) : (s.setPc w).engine = s.engine := rfl
@[simp] theorem State.setPc_key (w : Word) : (s.setPc w).key = s.key := rfl
@[simp] theorem State.setPc_fb (w : Word) : (s.setPc w).fb = s.fb := rfl
@[simp] theorem State.setPc_dt (w : Word) : (s.setPc w).dt = s.dt := rfl
@[simp] theorem State.setPc_st (w : Word) : (s.setPc w).st = s.st := rfl
@[simp] theorem State.setPc_romLen (w : Word) : (s.setPc w).romLen = s.romLen := rfl
@[simp] theorem State.setPc_draws (w : Word) : (s.setPc w).draws = s.draws := rfl
@[simp] theorem State.setPc_reply (w : Word) : (s.setPc w).reply = s.reply := rfl
@[simp] theorem State.setPc_failed (w : Word) : (s.setPc w).failed = s.failed := rfl
@[simp] theorem State.setPc_pending (w : Word) : (s.setPc w).pending = s.pending := rfl

/-! ### `State.setOpcode` -/

@[simp] theorem State.setOpcode_mem (w : Word) : (s.setOpcode w).mem = s.mem := rfl
@[simp] theorem State.setOpcode_v (w : Word) : (s.setOpcode w).v = s.v := rfl
@[simp] theorem State.setOpcode_i (w : Word) : (s.setOpcode w).i = s.i := rfl
@[simp] theorem State.setOpcode_pc (w : Word) : (s.setOpcode w).pc = s.pc := rfl
@[simp] theorem State.setOpcode_sp (w : Word) : (s.setOpcode w).sp = s.sp := rfl
@[simp] theorem State.setOpcode_stack (w : Word) : (s.setOpcode w).stack = s.stack := rfl
@[simp] theorem State.setOpcode_opcode (w : Word) : (s.setOpcode w).opcode = w := rfl
@[simp] theorem State.setOpcode_engine (w : Word) : (s.setOpcode w).engine = s.engine := rfl
@[simp] theorem State.setOpcode_key (w : Word) : (s.setOpcode w).key = s.key := rfl
@[simp] theorem State.setOpcode_fb (w : Word) : (s.setOpcode w).fb = s.fb := rfl
@[simp] theorem State.setOpcode_dt (w : Word) : (s.setOpcode w).dt = s.dt := rfl
@[simp] theorem State.setOpcode_st (w : Word) : (s.setOpcode w).st = s.st := rfl
@[simp] theorem State.setOpcode_romLen (w : Word) : (s.setOpcode w).romLen = s.romLen := rfl
@[simp] theorem State.setOpcode_draws (w : Word) : (s.setOpcode w).draws = s.draws := rfl
@[simp] theorem State.setOpcode_reply (w : Word) : (s.setOpcode w).reply = s.reply := rfl
@[simp] theorem State.setOpcode_failed (w : Word) : (s.setOpcode w).failed = s.failed := rfl
@[simp] theorem State.setOpcode_pending (w : Word) : (s.setOpcode w).pending = s.pending := rfl

/-! ### `State.setEngine` -/

@[simp] theorem State.setEngine_mem (e : Engine) : (s.setEngine e).mem = s.mem := rfl
@[simp] theorem State.setEngine_v (e : Engine) : (s.setEngine e).v = s.v := rfl
@[simp] theorem State.setEngine_i (e : Engine) : (s.setEngine e).i = s.i := rfl
@[simp] theorem State.setEngine_pc (e : Engine) : (s.setEngine e).pc = s.pc := rfl
@[simp] theorem State.setEngine_sp (e : Engine) : (s.setEngine e).sp = s.sp := rfl
@[simp] theorem State.setEngine_stack (e : Engine) : (s.setEngine e).stack = s.stack := rfl
@[simp] theorem State.setEngine_opcode (e : Engine) : (s.setEngine e).opcode = s.opcode := rfl
@[simp] theorem State.setEngine_engine (e : Engine) : (s.setEngine e).engine = e := rfl
@[simp] theorem State.setEngine_key (e : Engine) : (s.setEngine e).key = s.key := rfl
@[simp] theorem State.setEngine_fb (e : Engine) : (s.setEngine e).fb = s.fb := rfl
@[simp] theorem State.setEngine_dt (e : Engine) : (s.setEngine e).dt = s.dt := rfl
@[simp] theorem State.setEngine_st (e : Engine) : (s.setEngine e).st = s.st := rfl
@[simp] theorem State.setEngine_romLen (e : Engine) : (s.setEngine e).romLen = s.romLen := rfl
@[simp] theorem State.setEngine_draws (e : Engine) : (s.setEngine e).draws = s.draws := rfl
@[simp] theorem State.setEngine_reply (e : Engine) : (s.setEngine e).reply = s.reply := rfl
@[simp] theorem State.setEngine_failed (e : Engine) : (s.setEngine e).failed = s.failed := rfl
@[simp] theorem State.setEngine_pending (e : Engine) : (s.setEngine e).pending = s.pending := rfl

/-! ### `State.setDt` -/

@[simp] theorem State.setDt_mem (b : Byte) : (s.setDt b).mem = s.mem := rfl
@[simp] theorem State.setDt_v (b : Byte) : (s.setDt b).v = s.v := rfl
@[simp] theorem State.setDt_i (b : Byte) : (s.setDt b).i = s.i := rfl
@[simp] theorem State.setDt_pc (b : Byte) : (s.setDt b).pc = s.pc := rfl
@[simp] theorem State.setDt_sp (b : Byte) : (s.setDt b).sp = s.sp := rfl
@[simp] theorem State.setDt_stack (b : Byte) : (s.setDt b).stack = s.stack := rfl
@[simp] theorem State.setDt_opcode (b : Byte) : (s.setDt b).opcode = s.opcode := rfl
@[simp] theorem State.setDt_engine (b : Byte) : (s.setDt b).engine = s.engine := rfl
@[simp] theorem State.setDt_key (b : Byte) : (s.setDt b).key = s.key := rfl
@[simp] theorem State.setDt_fb (b : Byte) : (s.setDt b).fb = s.fb := rfl
@[simp] theorem State.setDt_dt (b : Byte) : (s.setDt b).dt = b := rfl
@[simp] theorem State.setDt_st (b : Byte) : (s.setDt b).st = s.st := rfl
@[simp] theorem State.setDt_romLen (b : Byte) : (s.setDt b).romLen = s.romLen := rfl
@[simp] theorem State.setDt_draws (b : Byte) : (s.setDt b).draws = s.draws := rfl
@[simp] theorem State.setDt_reply (b : Byte) : (s.setDt b).reply = s.reply := rfl
@[simp] theorem State.setDt_failed (b : Byte) : (s.setDt b).failed = s.failed := rfl
@[simp] theorem State.setDt_pending (b : Byte) : (s.setDt b).pending = s.pending := rfl

/-! ### `State.setSt` -/

@[simp] theorem State.setSt_mem (b : Byte) : (s.setSt b).mem = s.mem := rfl
@[simp] theorem State.setSt_v (b : Byte) : (s.setSt b).v = s.v := rfl
@[simp] theorem State.setSt_i (b : Byte) : (s.setSt b).i = s.i := rfl
@[simp] theorem State.setSt_pc (b : Byte) : (s.setSt b).pc = s.pc := rfl
@[simp] theorem State.setSt_sp (b : Byte) : (s.setSt b).sp = s.sp := rfl
@[simp] theorem State.setSt_stack (b : Byte) : (s.setSt b).stack = s.stack := rfl
@[simp] theorem State.setSt_opcode (b : Byte) : (s.setSt b).opcode = s.opcode := rfl
@[simp] theorem State.setSt_engine (b : Byte) : (s.setSt b).engine = s.engine := rfl
@[simp] theorem State.setSt_key (b : Byte) : (s.setSt b).key = s.key := rfl
@[simp] theorem State.setSt_fb (b : Byte) : (s.setSt b).fb = s.fb := rfl
@[simp] theorem State.setSt_dt (b : Byte) : (s.setSt b).dt = s.dt := rfl
@[simp] theorem State.setSt_st (b : Byte) : (s.setSt b).st = b := rfl
@[simp] theorem State.setSt_romLen (b : Byte) : (s.setSt b).romLen = s.romLen := rfl
@[simp] theorem State.setSt_draws (b : Byte) : (s.setSt b).draws = s.draws := rfl
@[simp] theorem State.setSt_reply (b : Byte) : (s.setSt b).reply = s.reply := rfl
@[simp] theorem State.setSt_failed (b : Byte) : (s.setSt b).failed = s.failed := rfl
@[simp] theorem State.setSt_pending (b : Byte) : (s.setSt b).pending = s.pending := rfl

/-! ### `State.setMem` -/

@[simp] theorem State.setMem_mem (m : Memory) : (s.setMem m).mem = m := rfl
@[simp] theorem State.setMem_v (m : Memory) : (s.setMem m).v = s.v := rfl
@[simp] theorem State.setMem_i (m : Memory) : (s.setMem m).i = s.i := rfl
@[simp] theorem State.setMem_pc (m : Memory) : (s.setMem m).pc = s.pc := rfl
@[simp] theorem State.setMem_sp (m : Memory) : (s.setMem m).sp = s.sp := rfl
@[simp] theorem State.setMem_stack (m : Memory) : (s.setMem m).stack = s.stack := rfl
@[simp] theorem State.setMem_opcode (m : Memory) : (s.setMem m).opcode = s.opcode := rfl
@[simp] theorem State.setMem_engine (m : Memory) : (s.setMem m).engine = s.engine := rfl
@[simp] theorem State.setMem_key (m : Memory) : (s.setMem m).key = s.key := rfl
@[simp] theorem State.setMem_fb (m : Memory) : (s.setMem m).fb = s.fb := rfl
@[simp] theorem State.setMem_dt (m : Memory) : (s.setMem m).dt = s.dt := rfl
@[simp] theorem State.setMem_st (m : Memory) : (s.setMem m).st = s.st := rfl
@[simp] theorem State.setMem_romLen (m : Memory) : (s.setMem m).romLen = s.romLen := rfl
@[simp] theorem State.setMem_draws (m : Memory) : (s.setMem m).draws = s.draws := rfl
@[simp] theorem State.setMem_reply (m : Memory) : (s.setMem m).reply = s.reply := rfl
@[simp] theorem State.setMem_failed (m : Memory) : (s.setMem m).failed = s.failed := rfl
@[simp] theorem State.setMem_pending (m : Memory) : (s.setMem m).pending = s.pending := rfl

/-! ### `State.setRomLen` -/

@[simp] theorem State.setRomLen_mem (n : Nat) : (s.setRomLen n).mem = s.mem := rfl
@[simp] theorem State.setRomLen_v (n : Nat) : (s.setRomLen n).v = s.v := rfl
@[simp] theorem State.setRomLen_i (n : Nat) : (s.setRomLen n).i = s.i := rfl
@[simp] theorem State.setRomLen_pc (n : Nat) : (s.setRomLen n).pc = s.pc := rfl
@[simp] theorem State.setRomLen_sp (n : Nat) : (s.setRomLen n).sp = s.sp := rfl
@[simp] theorem State.setRomLen_stack (n : Nat) : (s.setRomLen n).stack = s.stack := rfl
@[simp] theorem State.setRomLen_opcode (n : Nat) : (s.setRomLen n).opcode = s.opcode := rfl
@[simp] theorem State.setRomLen_engine (n : Nat) : (s.setRomLen n).engine = s.engine := rfl
@[simp] theorem State.setRomLen_key (n : Nat) : (s.setRomLen n).key = s.key := rfl
@[simp] theorem State.setRomLen_fb (n : Nat) : (s.setRomLen n).fb = s.fb := rfl
@[simp] theorem State.setRomLen_dt (n : Nat) : (s.setRomLen n).dt = s.dt := rfl
@[simp] theorem State.setRomLen_st (n : Nat) : (s.setRomLen n).st = s.st := rfl
@[simp] theorem State.setRomLen_romLen (n : Nat) : (s.setRomLen n).romLen = n := rfl
@[simp] theorem State.setRomLen_draws (n : Nat) : (s.setRomLen n).draws = s.draws := rfl
@[simp] theorem State.setRomLen_reply (n : Nat) : (s.setRomLen n).reply = s.reply := rfl
@[simp] theorem State.setRomLen_failed (n : Nat) : (s.setRomLen n).failed = s.failed := rfl
@[simp] theorem State.setRomLen_pending (n : Nat) : (s.setRomLen n).pending = s.pending := rfl

/-! ### `State.setReply` -/

@[simp] theorem State.setReply_mem (r : Reply) : (s.setReply r).mem = s.mem := rfl
@[simp] theorem State.setReply_v (r : Reply) : (s.setReply r).v = s.v := rfl
@[simp] theorem State.setReply_i (r : Reply) : (s.setReply r).i = s.i := rfl
@[simp] theorem State.setReply_pc (r : Reply) : (s.setReply r).pc = s.pc := rfl
@[simp] theorem State.setReply_sp (r : Reply) : (s.setReply r).sp = s.sp := rfl
@[simp] theorem State.setReply_stack (r : Reply) : (s.setReply r).stack = s.stack := rfl
@[simp] theorem State.setReply_opcode (r : Reply) : (s.setReply r).opcode = s.opcode := rfl
@[simp] theorem State.setReply_engine (r : Reply) : (s.setReply r).engine = s.engine := rfl
@[simp] theorem State.setReply_key (r : Reply) : (s.setReply r).key = s.key := rfl
@[simp] theorem State.setReply_fb (r : Reply) : (s.setReply r).fb = s.fb := rfl
@[simp] theorem State.setReply_dt (r : Reply) : (s.setReply r).dt = s.dt := rfl
@[simp] theorem State.setReply_st (r : Reply) : (s.setReply r).st = s.st := rfl
@[simp] theorem State.setReply_romLen (r : Reply) : (s.setReply r).romLen = s.romLen := rfl
@[simp] theorem State.setReply_draws (r : Reply) : (s.setReply r).draws = s.draws := rfl
@[simp] theorem State.setReply_reply (r : Reply) : (s.setReply r).reply = r := rfl
@[simp] theorem State.setReply_failed (r : Reply) : (s.setReply r).failed = s.failed := rfl
@[simp] theorem State.setReply_pending (r : Reply) : (s.setReply r).pending = s.pending := rfl

/-! ### `State.setPending` -/

@[simp] theorem State.setPending_mem (cs : List Command) : (s.setPending cs).mem = s.mem := rfl
@[simp] theorem State.setPending_v (cs : List Command) : (s.setPending cs).v = s.v := rfl
@[simp] theorem State.setPending_i (cs : List Command) : (s.setPending cs).i = s.i := rfl
@[simp] theorem State.setPending_pc (cs : List Command) : (s.setPending cs).pc = s.pc := rfl
@[simp] theorem State.setPending_sp (cs : List Command) : (s.setPending cs).sp = s.sp := rfl
@[simp] theorem State.setPending_stack (cs : List Command) : (s.setPending cs).stack = s.stack := rfl
@[simp] theorem State.setPending_opcode (cs : List Command) : (s.setPending cs).opcode = s.opcode := rfl
@[simp] theorem State.setPending_engine (cs : List Command) : (s.setPending cs).engine = s.engine := rfl
@[simp] theorem State.setPending_key (cs : List Command) : (s.setPending cs).key = s.key := rfl
@[simp] theorem State.setPending_fb (cs : List Command) : (s.setPending cs).fb = s.fb := rfl
@[simp] theorem State.setPending_dt (cs : List Command) : (s.setPending cs).dt = s.dt := rfl
@[simp] theorem State.setPending_st (cs : List Command) : (s.setPending cs).st = s.st := rfl
@[simp] theorem State.setPending_romLen (cs : List Command) : (s.setPending cs).romLen = s.romLen := rfl
@[simp] theorem State.setPending_draws (cs : List Command) : (s.setPending cs).draws = s.draws := rfl
@[simp] theorem State.setPending_reply (cs : List Command) : (s.setPending cs).reply = s.reply := rfl
@[simp] theorem State.setPending_failed (cs : List Command) : (s.setPending cs).failed = s.failed := rfl
@[simp] theorem State.setPending_pending (cs : List Command) : (s.setPending cs).pending = cs := rfl

/-! ### `State.setFb` -/

@[simp] theorem State.setFb_mem (f : Frame) : (s.setFb f).mem = s.mem := rfl
@[simp] theorem State.setFb_v (f : Frame) : (s.setFb f).v = s.v := rfl
@[simp] theorem State.setFb_i (f : Frame) : (s.setFb f).i = s.i := rfl
@[simp] theorem State.setFb_pc (f : Frame) : (s.setFb f).pc = s.pc := rfl
@[simp] theorem State.setFb_sp (f : Frame) : (s.setFb f).sp = s.sp := rfl
@[simp] theorem State.setFb_stack (f : Frame) : (s.setFb f).stack = s.stack := rfl
@[simp] theorem State.setFb_opcode (f : Frame) : (s.setFb f).opcode = s.opcode := rfl
@[simp] theorem State.setFb_engine (f : Frame) : (s.setFb f).engine = s.engine := rfl
@[simp] theorem State.setFb_key (f : Frame) : (s.setFb f).key = s.key := rfl
@[simp] theorem State.setFb_fb (f : Frame) : (s.setFb f).fb = f := rfl
@[simp] theorem State.setFb_dt (f : Frame) : (s.setFb f).dt = s.dt := rfl
@[simp] theorem State.setFb_st (f : Frame) : (s.setFb f).st = s.st := rfl
@[simp] theorem State.setFb_romLen (f : Frame) : (s.setFb f).romLen = s.romLen := rfl
@[simp] theorem State.setFb_draws (f : Frame) : (s.setFb f).draws = s.draws := rfl
@[simp] theorem State.setFb_reply (f : Frame) : (s.setFb f).reply = s.reply := rfl
@[simp] theorem State.setFb_failed (f : Frame) : (s.setFb f).failed = s.failed := rfl
@[simp] theorem State.setFb_pending (f : Frame) : (s.setFb f).pending = s.pending := rfl

/-! ### `State.setKey` -/

@[simp] theorem State.setKey_mem (k : Nibble) (p : Bool) : (s.setKey k p).mem = s.mem := rfl
@[simp] theorem State.setKey_v (k : Nibble) (p : Bool) : (s.setKey k p).v = s.v := rfl
@[simp] theorem State.setKey_i (k : Nibble) (p : Bool) : (s.setKey k p).i = s.i := rfl
@[simp] theorem State.setKey_pc (k : Nibble) (p : Bool) : (s.setKey k p).pc = s.pc := rfl
@[simp] theorem State.setKey_sp (k : Nibble) (p : Bool) : (s.setKey k p).sp = s.sp := rfl
@[simp] theorem State.setKey_stack (k : Nibble) (p : Bool) : (s.setKey k p).stack = s.stack := rfl
@[simp] theorem State.setKey_opcode (k : Nibble) (p : Bool) : (s.setKey k p).opcode = s.opcode := rfl
@[simp] theorem State.setKey_engine (k : Nibble) (p : Bool) : (s.setKey k p).engine = s.engine := rfl
@[simp] theorem State.setKey_key (k : Nibble) (p : Bool) : (s.setKey k p).key = s.key.set k.toNat p k.isLt := rfl
@[simp] theorem State.setKey_fb (k : Nibble) (p : Bool) : (s.setKey k p).fb = s.fb := rfl
@[simp] theorem State.setKey_dt (k : Nibble) (p : Bool) : (s.setKey k p).dt = s.dt := rfl
@[simp] theorem State.setKey_st (k : Nibble) (p : Bool) : (s.setKey k p).st = s.st := rfl
@[simp] theorem State.setKey_romLen (k : Nibble) (p : Bool) : (s.setKey k p).romLen = s.romLen := rfl
@[simp] theorem State.setKey_draws (k : Nibble) (p : Bool) : (s.setKey k p).draws = s.draws := rfl
@[simp] theorem State.setKey_reply (k : Nibble) (p : Bool) : (s.setKey k p).reply = s.reply := rfl
@[simp] theorem State.setKey_failed (k : Nibble) (p : Bool) : (s.setKey k p).failed = s.failed := rfl
@[simp] theorem State.setKey_pending (k : Nibble) (p : Bool) : (s.setKey k p).pending = s.pending := rfl

/-! ### `State.push` -/

@[simp] theorem State.push_mem (w : Word) : (s.push w).mem = s.mem := rfl
@[simp] theorem State.push_v (w : Word) : (s.push w).v = s.v := rfl
@[simp] theorem State.push_i (w : Word) : (s.push w).i = s.i := rfl
@[simp] theorem State.push_pc (w : Word) : (s.push w).pc = s.pc := rfl
@[simp] theorem State.push_sp (w : Word) : (s.push w).sp = s.sp + 1 := rfl
@[simp] theorem State.push_stack (w : Word) : (s.push w).stack = s.stack.set (s.sp.toNat % 16) w (Nat.mod_lt _ (by decide)) := rfl
@[simp] theorem State.push_opcode (w : Word) : (s.push w).opcode = s.opcode := rfl
@[simp] theorem State.push_engine (w : Word) : (s.push w).engine = s.engine := rfl
@[simp] theorem State.push_key (w : Word) : (s.push w).key = s.key := rfl
@[simp] theorem State.push_fb (w : Word) : (s.push w).fb = s.fb := rfl
@[simp] theorem State.push_dt (w : Word) : (s.push w).dt = s.dt := rfl
@[simp] theorem State.push_st (w : Word) : (s.push w).st = s.st := rfl
@[simp] theorem State.push_romLen (w : Word) : (s.push w).romLen = s.romLen := rfl
@[simp] theorem State.push_draws (w : Word) : (s.push w).draws = s.draws := rfl
@[simp] theorem State.push_reply (w : Word) : (s.push w).reply = s.reply := rfl
@[simp] theorem State.push_failed (w : Word) : (s.push w).failed = s.failed := rfl
@[simp] theorem State.push_pending (w : Word) : (s.push w).pending = s.pending := rfl

/-! ### `State.popPc` -/

@[simp] theorem State.popPc_mem : s.popPc.mem = s.mem := rfl
@[simp] theorem State.popPc_v : s.popPc.v = s.v := rfl
@[simp] theorem State.popPc_i : s.popPc.i = s.i := rfl
@[simp] theorem State.popPc_pc : s.popPc.pc = s.stackAt (s.sp - 1) := rfl
@[simp] theorem State.popPc_sp : s.popPc.sp = s.sp - 1 := rfl
@[simp] theorem State.popPc_stack : s.popPc.stack = s.stack := rfl
@[simp] theorem State.popPc_opcode : s.popPc.opcode = s.opcode := rfl
@[simp] theorem State.popPc_engine : s.popPc.engine = s.engine := rfl
@[simp] theorem State.popPc_key : s.popPc.key = s.key := rfl
@[simp] theorem State.popPc_fb : s.popPc.fb = s.fb := rfl
@[simp] theorem State.popPc_dt : s.popPc.dt = s.dt := rfl
@[simp] theorem State.popPc_st : s.popPc.st = s.st := rfl
@[simp] theorem State.popPc_romLen : s.popPc.romLen = s.romLen := rfl
@[simp] theorem State.popPc_draws : s.popPc.draws = s.draws := rfl
@[simp] theorem State.popPc_reply : s.popPc.reply = s.reply := rfl
@[simp] theorem State.popPc_failed : s.popPc.failed = s.failed := rfl
@[simp] theorem State.popPc_pending : s.popPc.pending = s.pending := rfl

/-! ### `State.fail` -/

@[simp] theorem State.fail_mem (k : Failure) : (s.fail k).mem = s.mem := rfl
@[simp] theorem State.fail_v (k : Failure) : (s.fail k).v = s.v := rfl
@[simp] theorem State.fail_i (k : Failure) : (s.fail k).i = s.i := rfl
@[simp] theorem State.fail_pc (k : Failure) : (s.fail k).pc = s.pc := rfl
@[simp] theorem State.fail_sp (k : Failure) : (s.fail k).sp = s.sp := rfl
@[simp] theorem State.fail_stack (k : Failure) : (s.fail k).stack = s.stack := rfl
@[simp] theorem State.fail_opcode (k : Failure) : (s.fail k).opcode = s.opcode := rfl
@[simp] theorem State.fail_engine (k : Failure) : (s.fail k).engine = s.engine := rfl
@[simp] theorem State.fail_key (k : Failure) : (s.fail k).key = s.key := rfl
@[simp] theorem State.fail_fb (k : Failure) : (s.fail k).fb = s.fb := rfl
@[simp] theorem State.fail_dt (k : Failure) : (s.fail k).dt = s.dt := rfl
@[simp] theorem State.fail_st (k : Failure) : (s.fail k).st = s.st := rfl
@[simp] theorem State.fail_romLen (k : Failure) : (s.fail k).romLen = s.romLen := rfl
@[simp] theorem State.fail_draws (k : Failure) : (s.fail k).draws = s.draws := rfl
@[simp] theorem State.fail_reply (k : Failure) : (s.fail k).reply = .err k := rfl
@[simp] theorem State.fail_failed (k : Failure) : (s.fail k).failed = some (s.failed.getD k) := rfl
@[simp] theorem State.fail_pending (k : Failure) : (s.fail k).pending = s.pending := rfl

/-! ### `State.rngNext` -/

@[simp] theorem State.rngNext_mem : s.rngNext.2.mem = s.mem := rfl
@[simp] theorem State.rngNext_v : s.rngNext.2.v = s.v := rfl
@[simp] theorem State.rngNext_i : s.rngNext.2.i = s.i := rfl
@[simp] theorem State.rngNext_pc : s.rngNext.2.pc = s.pc := rfl
@[simp] theorem State.rngNext_sp : s.rngNext.2.sp = s.sp := rfl
@[simp] theorem State.rngNext_stack : s.rngNext.2.stack = s.stack := rfl
@[simp] theorem State.rngNext_opcode : s.rngNext.2.opcode = s.opcode := rfl
@[simp] theorem State.rngNext_engine : s.rngNext.2.engine = s.engine := rfl
@[simp] theorem State.rngNext_key : s.rngNext.2.key = s.key := rfl
@[simp] theorem State.rngNext_fb : s.rngNext.2.fb = s.fb := rfl
@[simp] theorem State.rngNext_dt : s.rngNext.2.dt = s.dt := rfl
@[simp] theorem State.rngNext_st : s.rngNext.2.st = s.st := rfl
@[simp] theorem State.rngNext_romLen : s.rngNext.2.romLen = s.romLen := rfl
@[simp] theorem State.rngNext_draws : s.rngNext.2.draws = s.draws + 1 := rfl
@[simp] theorem State.rngNext_reply : s.rngNext.2.reply = s.reply := rfl
@[simp] theorem State.rngNext_failed : s.rngNext.2.failed = s.failed := rfl
@[simp] theorem State.rngNext_pending : s.rngNext.2.pending = s.pending := rfl
@[simp] theorem State.rngNext_byte : s.rngNext.1 = Config.rngByte s.draws := rfl

/-! ### Updates that are other updates -/

@[simp] theorem State.setFlag_eq (b : Byte) : s.setFlag b = s.setReg flagReg b := rfl
@[simp] theorem State.skipNext_eq : s.skipNext = s.setPc (s.pc + 2) := rfl
@[simp] theorem State.issued_eq : s.issued = s.setPending s.pending.tail := rfl
@[simp] theorem State.setFlagThenReg_eq (f : Byte) (x : Nibble) (b : Byte) :
    s.setFlagThenReg f x b = (s.setReg flagReg f).setReg x b := rfl

/-! ### Registers -/

theorem State.reg_congr {s t : State} (h : t.v = s.v) (x : Nibble) : t.reg x = s.reg x := by
  simp only [State.reg, h]

theorem State.reg_setReg (x r : Nibble) (b : Byte) :
    (s.setReg x b).reg r = if r = x then b else s.reg r := by
  by_cases h : r = x
  · subst h
    simp [State.reg]
  · have hne : ¬ x.toNat = r.toNat := fun e => h (BitVec.eq_of_toNat_eq e.symm)
    simp [State.reg, h, hne]

@[simp] theorem State.reg_setReg_same (x : Nibble) (b : Byte) : (s.setReg x b).reg x = b := by
  simp [State.reg_setReg]

theorem State.reg_setReg_ne {x r : Nibble} (b : Byte) (h : r ≠ x) : (s.setReg x b).reg r = s.reg r := by
  simp [State.reg_setReg, h]

theorem State.stackAt_congr {s t : State} (h : t.stack = s.stack) (p : Byte) :
    t.stackAt p = s.stackAt p := by
  simp only [State.stackAt, h]

theorem State.keyDown_congr {s t : State} (h : t.key = s.key) (k : Nibble) :
    t.keyDown k = s.keyDown k := by
  simp only [State.keyDown, h]

theorem State.lowestKey_congr {s t : State} (h : t.key = s.key) : t.lowestKey = s.lowestKey := by
  simp only [State.lowestKey, State.keyDown, h]

end Sys2Proof.Machine
end

