-- ==== Sys2Proof/Laws/Operands.lean ====
section
/-! SUPPORT. One lemma for each operand form and each shared operation of the meanings. -/

namespace Sys2Proof.Machine

/-! ## Operands as numbers -/

@[simp] theorem toNat_addrValue (nnn : Addr) : (addrValue nnn).toNat = nnn.toNat := by
  have := nnn.isLt
  simp only [addrValue, BitVec.toNat_setWidth]
  omega

@[simp] theorem toNat_wordValue (b : Byte) : (wordValue b).toNat = b.toNat := by
  have := b.isLt
  simp only [wordValue, BitVec.toNat_setWidth]
  omega

@[simp] theorem toNat_lowNibble (b : Byte) : (lowNibble b).toNat = b.toNat % 16 := by
  simp [lowNibble]

@[simp] theorem toNat_glyphAddr (d : Nibble) : (glyphAddr d).toNat = 0x050 + 5 * d.toNat := by
  have := d.isLt
  simp only [glyphAddr, Config.fontBase_eq, Config.glyphBytes_eq, BitVec.toNat_ofNat]
  omega

theorem effAddr_eq (s : State) (k : Nat) : effAddr s k = s.i.toNat + k := rfl

/-- The check of R45: the last of the `n` bytes is below 4096. -/
theorem inRange_iff (a n : Nat) : inRange a n = true ↔ n = 0 ∨ a + n ≤ 4096 := by
  rw [inRange, Bool.or_eq_true, decide_eq_true_iff, decide_eq_true_iff, Config.memSize_eq]

/-! ## Flags -/

theorem flagOf_true : flagOf true = 1 := rfl
theorem flagOf_false : flagOf false = 0 := rfl

theorem flagOf_eq_one_iff (c : Bool) : flagOf c = 1 ↔ c = true := by cases c <;> decide

/-- The two ordered writes of a flag-setting instruction, read at any register (R88). -/
theorem reg_setFlagThenReg (s : State) (f : Byte) (x r : Nibble) (b : Byte) :
    (s.setFlagThenReg f x b).reg r = if r = x then b else if r = flagReg then f else s.reg r := by
  simp [State.reg_setReg]

/-! ## Taking a failure, skipping, accessing memory: everything each can do -/

theorem raise_eq_next {k : Failure} {s t : State} (h : raise k s = .next t) : t = s.fail k :=
  (Host.Outcome.next.inj h).symm

theorem skipIf_eq (c : Bool) (s : State) :
    skipIf c s = .next { s with pc := if c = true then s.pc + 2 else s.pc } := by
  cases c <;> rfl

theorem withBytesAtI_of_inRange {n : Nat} {s : State} {r : Result} (h : n = 0 ∨ s.i.toNat + n ≤ 4096) :
    withBytesAtI n s r = r := by
  have h' : inRange (effAddr s 0) n = true := (inRange_iff _ _).2 h
  simp [withBytesAtI, h']

theorem withBytesAtI_of_not_inRange {n : Nat} {s : State} {r : Result}
    (h0 : n ≠ 0) (h : 4096 < s.i.toNat + n) : withBytesAtI n s r = .next (s.fail .addressOutOfRange) := by
  have h' : ¬ inRange (effAddr s 0) n = true := fun hr =>
    (inRange_iff _ _).1 hr |>.elim h0 (fun hle => by rw [effAddr_eq] at hle; omega)
  simp [withBytesAtI, h', raise]

/-- Either the bytes exist and the action runs, or `AddressOutOfRange` is taken on the state as it was. -/
theorem withBytesAtI_cases (n : Nat) (s : State) (r : Result) :
    ((n = 0 ∨ s.i.toNat + n ≤ 4096) ∧ withBytesAtI n s r = r) ∨
    ((n ≠ 0 ∧ 4096 < s.i.toNat + n) ∧ withBytesAtI n s r = .next (s.fail .addressOutOfRange)) := by
  by_cases h : n = 0 ∨ s.i.toNat + n ≤ 4096
  · exact .inl ⟨h, withBytesAtI_of_inRange h⟩
  · have h' : n ≠ 0 ∧ 4096 < s.i.toNat + n := by omega
    exact .inr ⟨h', withBytesAtI_of_not_inRange h'.1 h'.2⟩

theorem storeAtI_cases (bs : List Byte) (s : State) :
    ((bs.length = 0 ∨ s.i.toNat + bs.length ≤ 4096) ∧
      storeAtI bs s = .next (s.setMem (s.mem.writeBytes s.i.toNat bs))) ∨
    ((bs.length ≠ 0 ∧ 4096 < s.i.toNat + bs.length) ∧
      storeAtI bs s = .next (s.fail .addressOutOfRange)) :=
  withBytesAtI_cases bs.length s _

theorem storeAtI_of_inRange {bs : List Byte} {s : State} (h : s.i.toNat + bs.length ≤ 4096) :
    storeAtI bs s = .next (s.setMem (s.mem.writeBytes s.i.toNat bs)) :=
  withBytesAtI_of_inRange (.inr h)

/-! ## Block transfers -/

@[simp] theorem length_decimalDigits (b : Byte) : (decimalDigits b).length = 3 := rfl

@[simp] theorem length_regsUpTo (s : State) (x : Nibble) : (regsUpTo s x).length = x.toNat + 1 := by
  simp [regsUpTo, countValue]

theorem getD_regsUpTo (s : State) (x r : Nibble) (h : r.toNat ≤ x.toNat) :
    (regsUpTo s x).getD r.toNat 0 = s.reg r := by
  have hr : r.toNat < x.toNat + 1 := by omega
  have hx := x.isLt
  simp [regsUpTo, countValue, List.getD_eq_getElem?_getD, hr]

@[simp] theorem length_bytesAtI (s : State) (n : Nat) : (bytesAtI s n).length = n := by
  simp [bytesAtI]

theorem getD_bytesAtI (s : State) (n k : Nat) (h : k < n) :
    (bytesAtI s n).getD k 0 = s.mem.read (s.i.toNat + k) := by
  simp [bytesAtI, effAddr, List.getD_eq_getElem?_getD, h]

/-- Loading registers changes `V` alone. -/
theorem loadRegs_eq (s : State) (k : Nat) (bs : List Byte) :
    s.loadRegs k bs = { s with v := (s.loadRegs k bs).v } := by
  induction bs generalizing s k with
  | nil => rfl
  | cons b bs ih =>
    rw [State.loadRegs, ih]
    rfl

/-- What every register holds after consecutive registers are loaded. -/
theorem reg_loadRegs (s : State) (k : Nat) (bs : List Byte) (h : k + bs.length ≤ 16) (r : Nibble) :
    (s.loadRegs k bs).reg r =
      if k ≤ r.toNat ∧ r.toNat < k + bs.length then bs.getD (r.toNat - k) 0 else s.reg r := by
  induction bs generalizing s k with
  | nil =>
    have h0 : ¬ (k ≤ r.toNat ∧ r.toNat < k + ([] : List Byte).length) := by simp
    rw [if_neg h0, State.loadRegs]
  | cons b bs ih =>
    simp only [List.length_cons] at h ⊢
    rw [State.loadRegs, ih _ _ (by omega), State.reg_setReg]
    by_cases h1 : r = BitVec.ofNat 4 k
    · have hk : r.toNat = k := by
        rw [h1, BitVec.toNat_ofNat]
        omega
      have h2 : ¬ (k + 1 ≤ r.toNat ∧ r.toNat < k + 1 + bs.length) := by omega
      have h3 : k ≤ r.toNat ∧ r.toNat < k + (bs.length + 1) := by omega
      rw [if_neg h2, if_pos h1, if_pos h3, hk, Nat.sub_self]
      rfl
    · have hk : r.toNat ≠ k := by
        intro e
        apply h1
        apply BitVec.eq_of_toNat_eq
        rw [BitVec.toNat_ofNat, e]
        omega
      by_cases h2 : k + 1 ≤ r.toNat ∧ r.toNat < k + 1 + bs.length
      · have h3 : k ≤ r.toNat ∧ r.toNat < k + (bs.length + 1) := by omega
        obtain ⟨j, hj⟩ : ∃ j, r.toNat = k + 1 + j := ⟨r.toNat - (k + 1), by omega⟩
        have h4 : k + 1 + j - (k + 1) = j := by omega
        have h5 : k + 1 + j - k = j + 1 := by omega
        rw [if_pos h2, if_pos h3, hj, h4, h5]
        rfl
      · have h3 : ¬ (k ≤ r.toNat ∧ r.toNat < k + (bs.length + 1)) := by omega
        rw [if_neg h2, if_neg h3, if_neg h1]

/-! ## The lowest pressed key -/

theorem mem_allNibbles : ∀ k : Nibble, k ∈ allNibbles := by decide

/-- `lowestKey` is the least pressed key, and none only when no key is pressed (R162). -/
theorem lowestKey_eq_none_iff (s : State) : s.lowestKey = none ↔ ∀ k, s.keyDown k = false := by
  simp [State.lowestKey, List.find?_eq_none, mem_allNibbles]

theorem allNibbles_sorted : allNibbles.Pairwise (fun j k => j.toNat < k.toNat) := by decide

theorem lowestKey_eq_some_iff (s : State) (k : Nibble) :
    s.lowestKey = some k ↔ s.keyDown k = true ∧ ∀ j : Nibble, j.toNat < k.toNat → s.keyDown j = false := by
  have key : ∀ l : List Nibble, l.Pairwise (fun j k => j.toNat < k.toNat) → ∀ k,
      l.find? (fun k => s.keyDown k) = some k ↔
        k ∈ l ∧ s.keyDown k = true ∧ ∀ j ∈ l, j.toNat < k.toNat → s.keyDown j = false := by
    intro l
    induction l with
    | nil => simp
    | cons a l ih =>
      intro hl k
      have hhead := (List.pairwise_cons.1 hl).1
      have htail := (List.pairwise_cons.1 hl).2
      by_cases ha : s.keyDown a = true
      · simp only [List.find?_cons, ha, Option.some.injEq, List.mem_cons]
        constructor
        · rintro rfl
          refine ⟨.inl rfl, ha, ?_⟩
          rintro j (rfl | hj) hlt
          · omega
          · have := hhead j hj
            omega
        · rintro ⟨rfl | hk, _, hmin⟩
          · rfl
          · have := hmin a (.inl rfl) (hhead k hk)
            rw [ha] at this
            exact absurd this (by decide)
      · have ha' : s.keyDown a = false := by simpa using ha
        simp only [List.find?_cons, ha', ih htail k, List.mem_cons]
        constructor
        · rintro ⟨hk, hd, hmin⟩
          refine ⟨.inr hk, hd, ?_⟩
          rintro j (rfl | hj) hlt
          · exact ha'
          · exact hmin j hj hlt
        · rintro ⟨rfl | hk, hd, hmin⟩
          · rw [ha'] at hd
            exact absurd hd (by decide)
          · exact ⟨hk, hd, fun j hj => hmin j (.inr hj)⟩
  rw [State.lowestKey, key allNibbles allNibbles_sorted k]
  simp [mem_allNibbles]

end Sys2Proof.Machine
end

