-- ==== Sys2Proof/Laws/Control.lean ====
section
/-! SUPPORT. The return-address stack: everything `CALL` and `RET` can do, and the entries they touch. -/

namespace Sys2Proof.Machine

theorem execCall_of_full {nnn : Addr} {s : State} (h : s.sp = 15) : execCall nnn s = .next (s.fail .stackOverflow) :=
  if_pos h

theorem execCall_of_room {nnn : Addr} {s : State} (h : s.sp ≠ 15) :
    execCall nnn s = .next ((s.push s.pc).setPc (addrValue nnn)) :=
  if_neg h

theorem execRet_of_empty {s : State} (h : s.sp = 0) : execRet s = .next (s.fail .stackUnderflow) := if_pos h

theorem execRet_of_entry {s : State} (h : s.sp ≠ 0) : execRet s = .next s.popPc := if_neg h

/-- Inside the range of `SP` (R16) the entry is the one of that number. -/
theorem stackAt_eq_getElem (s : State) {p : Byte} {k : Nat} (hp : p.toNat = k) (hk : k < 16) :
    s.stackAt p = s.stack[k] := by
  have h : p.toNat % 16 = k := by omega
  simp only [State.stackAt, h]

theorem toNat_incr {p : Byte} (h : p.toNat ≤ 15) : (p + 1).toNat = p.toNat + 1 := by
  simp only [BitVec.toNat_add, BitVec.ofNat_eq_ofNat, BitVec.toNat_ofNat]
  omega

theorem toNat_decr {p : Byte} (h : p ≠ 0) : (p - 1).toNat = p.toNat - 1 := by
  have h0 : p.toNat ≠ 0 := fun e => h (BitVec.eq_of_toNat_eq (by simpa using e))
  have := p.isLt
  simp only [BitVec.toNat_sub, BitVec.ofNat_eq_ofNat, BitVec.toNat_ofNat]
  omega

/-- `push` writes the entry at `SP` and no other (R103). -/
theorem getElem_stack_push (s : State) (w : Word) {k : Nat} (hk : k < 16) :
    (s.push w).stack[k] = if k = s.sp.toNat % 16 then w else s.stack[k] := by
  simp [State.push, Vector.getElem_set, eq_comm]

end Sys2Proof.Machine
end

