-- ==== Sys2Proof/Laws/Decode.lean ====
section
/-! SUPPORT. The fields of a word built from its parts, and the words that select `NOP`. -/

namespace Sys2Proof

/-! ## Fields as numbers -/

theorem toNat_fieldT (w : Word) : (fieldT w).toNat = w.toNat / 4096 := by
  have := w.isLt
  simp [fieldT, Nat.shiftRight_eq_div_pow]
  omega

theorem toNat_fieldX (w : Word) : (fieldX w).toNat = w.toNat / 256 % 16 := by
  simp [fieldX, Nat.shiftRight_eq_div_pow]

theorem toNat_fieldY (w : Word) : (fieldY w).toNat = w.toNat / 16 % 16 := by
  simp [fieldY, Nat.shiftRight_eq_div_pow]

theorem toNat_fieldN (w : Word) : (fieldN w).toNat = w.toNat % 16 := by
  simp [fieldN]

theorem toNat_fieldNN (w : Word) : (fieldNN w).toNat = w.toNat % 256 := by
  simp [fieldNN]

theorem toNat_fieldNNN (w : Word) : (fieldNNN w).toNat = w.toNat % 4096 := by
  simp [fieldNNN]

theorem toNat_highByte (w : Word) : (highByte w).toNat = w.toNat / 256 := by
  have := w.isLt
  simp [highByte, Nat.shiftRight_eq_div_pow]
  omega

theorem toNat_lowByte (w : Word) : (lowByte w).toNat = w.toNat % 256 := by
  simp [lowByte]

/-- The number that a concatenation stands for (R8). -/
theorem toNat_append_eq {m n : Nat} (a : BitVec m) (b : BitVec n) :
    (a ++ b).toNat = a.toNat * 2 ^ n + b.toNat := by
  rw [BitVec.toNat_append, Nat.shiftLeft_eq, Nat.mul_comm, Nat.two_pow_add_eq_or_of_lt b.isLt]

theorem toNat_wordOfBytes (hi lo : Byte) : (wordOfBytes hi lo).toNat = hi.toNat * 256 + lo.toNat :=
  toNat_append_eq hi lo

theorem toNat_wordOfNibbles (t x y n : Nibble) :
    (wordOfNibbles t x y n).toNat = t.toNat * 4096 + x.toNat * 256 + y.toNat * 16 + n.toNat := by
  unfold wordOfNibbles
  rw [toNat_append_eq, toNat_append_eq, toNat_append_eq]
  omega

theorem toNat_wordOfByteView (t x : Nibble) (nn : Byte) :
    (wordOfByteView t x nn).toNat = t.toNat * 4096 + x.toNat * 256 + nn.toNat := by
  unfold wordOfByteView
  rw [toNat_append_eq, toNat_append_eq]
  omega

theorem toNat_wordOfAddrView (t : Nibble) (nnn : Addr) :
    (wordOfAddrView t nnn).toNat = t.toNat * 4096 + nnn.toNat := by
  unfold wordOfAddrView
  rw [toNat_append_eq, show (2 : Nat) ^ 12 = 4096 from rfl]

/-! ## Fields of a word built from its parts -/

section
variable (t x y n : Nibble) (nn : Byte) (nnn : Addr)

@[simp] theorem fieldT_wordOfNibbles : fieldT (wordOfNibbles t x y n) = t := by
  apply BitVec.eq_of_toNat_eq
  have := t.isLt; have := x.isLt; have := y.isLt; have := n.isLt
  rw [toNat_fieldT, toNat_wordOfNibbles]
  omega

@[simp] theorem fieldX_wordOfNibbles : fieldX (wordOfNibbles t x y n) = x := by
  apply BitVec.eq_of_toNat_eq
  have := t.isLt; have := x.isLt; have := y.isLt; have := n.isLt
  rw [toNat_fieldX, toNat_wordOfNibbles]
  omega

@[simp] theorem fieldY_wordOfNibbles : fieldY (wordOfNibbles t x y n) = y := by
  apply BitVec.eq_of_toNat_eq
  have := t.isLt; have := x.isLt; have := y.isLt; have := n.isLt
  rw [toNat_fieldY, toNat_wordOfNibbles]
  omega

@[simp] theorem fieldN_wordOfNibbles : fieldN (wordOfNibbles t x y n) = n := by
  apply BitVec.eq_of_toNat_eq
  have := t.isLt; have := x.isLt; have := y.isLt; have := n.isLt
  rw [toNat_fieldN, toNat_wordOfNibbles]
  omega

@[simp] theorem fieldT_wordOfByteView : fieldT (wordOfByteView t x nn) = t := by
  apply BitVec.eq_of_toNat_eq
  have := t.isLt; have := x.isLt; have := nn.isLt
  rw [toNat_fieldT, toNat_wordOfByteView]
  omega

@[simp] theorem fieldX_wordOfByteView : fieldX (wordOfByteView t x nn) = x := by
  apply BitVec.eq_of_toNat_eq
  have := t.isLt; have := x.isLt; have := nn.isLt
  rw [toNat_fieldX, toNat_wordOfByteView]
  omega

@[simp] theorem fieldNN_wordOfByteView : fieldNN (wordOfByteView t x nn) = nn := by
  apply BitVec.eq_of_toNat_eq
  have := t.isLt; have := x.isLt; have := nn.isLt
  rw [toNat_fieldNN, toNat_wordOfByteView]
  omega

@[simp] theorem fieldT_wordOfAddrView : fieldT (wordOfAddrView t nnn) = t := by
  apply BitVec.eq_of_toNat_eq
  have := t.isLt; have := nnn.isLt
  rw [toNat_fieldT, toNat_wordOfAddrView]
  omega

@[simp] theorem fieldNNN_wordOfAddrView : fieldNNN (wordOfAddrView t nnn) = nnn := by
  apply BitVec.eq_of_toNat_eq
  have := t.isLt; have := nnn.isLt
  rw [toNat_fieldNNN, toNat_wordOfAddrView]
  omega

end

@[simp] theorem wordOfBytes_highByte_lowByte (w : Word) : wordOfBytes (highByte w) (lowByte w) = w := by
  apply BitVec.eq_of_toNat_eq
  rw [toNat_wordOfBytes, toNat_highByte, toNat_lowByte]
  omega

/-! ## A word is its fields -/

theorem wordOfNibbles_fields (w : Word) :
    wordOfNibbles (fieldT w) (fieldX w) (fieldY w) (fieldN w) = w := by
  apply BitVec.eq_of_toNat_eq
  have := w.isLt
  rw [toNat_wordOfNibbles, toNat_fieldT, toNat_fieldX, toNat_fieldY, toNat_fieldN]
  omega

theorem wordOfByteView_fields (w : Word) : wordOfByteView (fieldT w) (fieldX w) (fieldNN w) = w := by
  apply BitVec.eq_of_toNat_eq
  have := w.isLt
  rw [toNat_wordOfByteView, toNat_fieldT, toNat_fieldX, toNat_fieldNN]
  omega

theorem wordOfAddrView_fields (w : Word) : wordOfAddrView (fieldT w) (fieldNNN w) = w := by
  apply BitVec.eq_of_toNat_eq
  have := w.isLt
  rw [toNat_wordOfAddrView, toNat_fieldT, toNat_fieldNNN]
  omega

/-! ## Masked comparison is comparison of fields (R64) -/

theorem nibble_cases : ∀ t : Nibble, t = 0x0 ∨ t = 0x1 ∨ t = 0x2 ∨ t = 0x3 ∨ t = 0x4 ∨ t = 0x5 ∨
    t = 0x6 ∨ t = 0x7 ∨ t = 0x8 ∨ t = 0x9 ∨ t = 0xA ∨ t = 0xB ∨ t = 0xC ∨ t = 0xD ∨ t = 0xE ∨
    t = 0xF := by
  decide

theorem nibble_and_full : ∀ a : Nibble, a &&& 0xF#4 = a := by decide

theorem byte_and_full (a : Byte) : a &&& 0xFF#8 = a := BitVec.and_allOnes

/-- Two words are equal when their four nibbles are. -/
theorem word_eq_iff_nibbles (w v : Word) :
    w = v ↔ fieldT w = fieldT v ∧ fieldX w = fieldX v ∧ fieldY w = fieldY v ∧ fieldN w = fieldN v := by
  constructor
  · rintro rfl
    exact ⟨rfl, rfl, rfl, rfl⟩
  · rintro ⟨ht, hx, hy, hn⟩
    rw [← wordOfNibbles_fields w, ← wordOfNibbles_fields v, ht, hx, hy, hn]

theorem word_eq_iff_byteView (w v : Word) :
    w = v ↔ fieldT w = fieldT v ∧ fieldX w = fieldX v ∧ fieldNN w = fieldNN v := by
  constructor
  · rintro rfl
    exact ⟨rfl, rfl, rfl⟩
  · rintro ⟨ht, hx, hn⟩
    rw [← wordOfByteView_fields w, ← wordOfByteView_fields v, ht, hx, hn]

theorem fieldT_and (w m : Word) : fieldT (w &&& m) = fieldT w &&& fieldT m := BitVec.extractLsb'_and
theorem fieldX_and (w m : Word) : fieldX (w &&& m) = fieldX w &&& fieldX m := BitVec.extractLsb'_and
theorem fieldY_and (w m : Word) : fieldY (w &&& m) = fieldY w &&& fieldY m := BitVec.extractLsb'_and
theorem fieldN_and (w m : Word) : fieldN (w &&& m) = fieldN w &&& fieldN m := BitVec.extractLsb'_and
theorem fieldNN_and (w m : Word) : fieldNN (w &&& m) = fieldNN w &&& fieldNN m := BitVec.extractLsb'_and

/-- Mask `0xF000` compares the family. -/
theorem and_F000_eq_iff (w v : Word) :
    w &&& 0xF000 = v ↔ fieldT w = fieldT v ∧ fieldX v = 0 ∧ fieldY v = 0 ∧ fieldN v = 0 := by
  rw [word_eq_iff_nibbles, fieldT_and, fieldX_and, fieldY_and, fieldN_and,
    show fieldT 0xF000 = 0xF#4 from rfl, show fieldX 0xF000 = 0 from rfl,
    show fieldY 0xF000 = 0 from rfl, show fieldN 0xF000 = 0 from rfl, nibble_and_full]
  simp [eq_comm]

/-- Mask `0xF00F` compares the family and the low nibble. -/
theorem and_F00F_eq_iff (w v : Word) :
    w &&& 0xF00F = v ↔ fieldT w = fieldT v ∧ fieldX v = 0 ∧ fieldY v = 0 ∧ fieldN w = fieldN v := by
  rw [word_eq_iff_nibbles, fieldT_and, fieldX_and, fieldY_and, fieldN_and,
    show fieldT 0xF00F = 0xF#4 from rfl, show fieldX 0xF00F = 0 from rfl,
    show fieldY 0xF00F = 0 from rfl, show fieldN 0xF00F = 0xF#4 from rfl, nibble_and_full,
    nibble_and_full]
  simp [eq_comm]

/-- Mask `0xF0FF` compares the family and the low byte. -/
theorem and_F0FF_eq_iff (w v : Word) :
    w &&& 0xF0FF = v ↔ fieldT w = fieldT v ∧ fieldX v = 0 ∧ fieldNN w = fieldNN v := by
  rw [word_eq_iff_byteView, fieldT_and, fieldX_and, fieldNN_and,
    show fieldT 0xF0FF = 0xF#4 from rfl, show fieldX 0xF0FF = 0 from rfl,
    show fieldNN 0xF0FF = 0xFF#8 from rfl, nibble_and_full, byte_and_full]
  simp [eq_comm]

/-! ## The words that select `NOP` (R67) -/

/-- No row of the table matches: the families `0`, `8`, `E`, `F` with an unassigned selector. -/
theorem isNopWord_iff (w : Word) :
    isNopWord w = true ↔
      (fieldT w = 0x0 ∧ fieldNN w ≠ 0xE0 ∧ fieldNN w ≠ 0xEE) ∨
      (fieldT w = 0x8 ∧ fieldN w ≠ 0x0 ∧ fieldN w ≠ 0x1 ∧ fieldN w ≠ 0x2 ∧ fieldN w ≠ 0x3 ∧
        fieldN w ≠ 0x4 ∧ fieldN w ≠ 0x5 ∧ fieldN w ≠ 0x6 ∧ fieldN w ≠ 0x7 ∧ fieldN w ≠ 0xE) ∨
      (fieldT w = 0xE ∧ fieldNN w ≠ 0x9E ∧ fieldNN w ≠ 0xA1) ∨
      (fieldT w = 0xF ∧ fieldNN w ≠ 0x07 ∧ fieldNN w ≠ 0x0A ∧ fieldNN w ≠ 0x15 ∧ fieldNN w ≠ 0x18 ∧
        fieldNN w ≠ 0x1E ∧ fieldNN w ≠ 0x29 ∧ fieldNN w ≠ 0x33 ∧ fieldNN w ≠ 0x55 ∧
        fieldNN w ≠ 0x65) := by
  simp only [isNopWord, opcodeRows, OpcodeRow.matches, List.cons_append, List.nil_append, List.all_cons,
    List.all_nil, Bool.and_true, Bool.and_eq_true, Bool.not_eq_true', beq_eq_false_iff_ne, ne_eq,
    and_F000_eq_iff, and_F00F_eq_iff, and_F0FF_eq_iff]
  generalize fieldT w = t
  generalize fieldN w = n
  generalize fieldNN w = nn
  rcases nibble_cases t with rfl | rfl | rfl | rfl | rfl | rfl | rfl | rfl | rfl | rfl | rfl | rfl | rfl | rfl |
    rfl | rfl <;>
    simp [fieldT, fieldX, fieldY, fieldN, fieldNN]

/-- A word that matches no row decodes to `NOP`. -/
theorem decodeWord_of_isNopWord {w : Word} (h : isNopWord w = true) : decodeWord w = .nop w := by
  have h' := (isNopWord_iff w).1 h
  simp only [ne_eq, BitVec.ofNat_eq_ofNat] at h'
  rcases h' with h | h | h | h <;>
    simp [decodeWord, decodeFamily0, decodeFamily8, decodeFamilyE, decodeFamilyF, h]

/-- A word that decodes to `NOP` matches no row. -/
theorem isNopWord_of_decodeWord {w v : Word} (h : decodeWord w = .nop v) : isNopWord w = true := by
  rw [isNopWord_iff]
  unfold decodeWord decodeFamily0 decodeFamily8 decodeFamilyE decodeFamilyF at h
  rcases nibble_cases (fieldT w) with ht | ht | ht | ht | ht | ht | ht | ht | ht | ht | ht | ht | ht |
    ht | ht | ht
  case inl =>
    left
    refine ⟨ht, ?_, ?_⟩ <;> intro hn <;> simp [ht, hn] at h
  case inr.inr.inr.inr.inr.inr.inr.inr.inl =>
    right; left
    refine ⟨ht, ?_, ?_, ?_, ?_, ?_, ?_, ?_, ?_, ?_⟩ <;> intro hn <;> simp [ht, hn] at h
  case inr.inr.inr.inr.inr.inr.inr.inr.inr.inr.inr.inr.inr.inr.inl =>
    right; right; left
    refine ⟨ht, ?_, ?_⟩ <;> intro hn <;> simp [ht, hn] at h
  case inr.inr.inr.inr.inr.inr.inr.inr.inr.inr.inr.inr.inr.inr.inr =>
    right; right; right
    refine ⟨ht, ?_, ?_, ?_, ?_, ?_, ?_, ?_, ?_, ?_⟩ <;> intro hn <;> simp [ht, hn] at h
  all_goals simp [ht] at h

/-- The words that decode to `NOP` are those that match no row. -/
theorem decodeWord_eq_nop_iff (w : Word) : decodeWord w = .nop w ↔ isNopWord w = true :=
  ⟨isNopWord_of_decodeWord, decodeWord_of_isNopWord⟩

end Sys2Proof
end

