-- ==== Sys2Proof/Laws/Exec.lean ====
section
/-! SUPPORT. What one instruction can do, said once over all instructions: when it fails, and which fields
of the state it may change otherwise. The lemmas about steps cite this and unfold no meaning. -/

namespace Sys2Proof.Machine

/-- The failure an instruction takes, if it takes one. -/
def failure (i : Instr) (s : State) : Option Failure :=
  match i with
  | .call _ => if s.sp = 15 then some .stackOverflow else none
  | .ret _ => if s.sp = 0 then some .stackUnderflow else none
  | .drw _ _ n => if n.toNat ≠ 0 ∧ 4096 < s.i.toNat + n.toNat then some .addressOutOfRange else none
  | .ldB _ => if 4096 < s.i.toNat + 3 then some .addressOutOfRange else none
  | .ldMemVx x => if 4096 < s.i.toNat + (x.toNat + 1) then some .addressOutOfRange else none
  | .ldVxMem x => if 4096 < s.i.toNat + (x.toNat + 1) then some .addressOutOfRange else none
  | .cls _ | .jp _ | .seImm _ _ | .sneImm _ _ | .seReg _ _ _ | .sneReg _ _ _ | .ldImm _ _ | .addImm _ _
  | .ldReg _ _ | .orReg _ _ | .andReg _ _ | .xorReg _ _ | .addReg _ _ | .subReg _ _ | .shr _ _
  | .subnReg _ _ | .shl _ _ | .ldI _ | .jpV0 _ | .rnd _ _ | .skp _ | .sknp _ | .ldVxDt _ | .ldVxK _
  | .ldDtVx _ | .ldStVx _ | .addI _ | .ldF _ | .nop _ => none

/-- Which fields the effect of an instruction may change, and which instructions may change them. -/
structure Effect (i : Instr) (s t : State) : Prop where
  key : t.key = s.key
  romLen : t.romLen = s.romLen
  opcode : t.opcode = s.opcode
  pending : t.pending = s.pending
  reply : t.reply = s.reply
  failed : t.failed = s.failed
  index : t.i = s.i ∨ (∃ a, i = .ldI a) ∨ (∃ x, i = .addI x) ∨ (∃ x, i = .ldF x)
  fb : t.fb = s.fb ∨ (∃ a, i = .cls a) ∨ (∃ x y n, i = .drw x y n)
  engine : t.engine = s.engine ∨ ∃ x, i = .ldVxK x
  sp : t.sp = s.sp ∨ (∃ a, i = .call a ∧ t.sp = s.sp + 1) ∨ (∃ a, i = .ret a ∧ t.sp = s.sp - 1)
  stack : t.stack = s.stack ∨ ∃ a, i = .call a ∧ t.stack = (s.push s.pc).stack
  dt : t.dt = s.dt ∨ ∃ x, i = .ldDtVx x ∧ t.dt = s.reg x
  st : t.st = s.st ∨ ∃ x, i = .ldStVx x ∧ t.st = s.reg x
  mem : t.mem = s.mem ∨ (∃ x, i = .ldB x ∧ t.mem = s.mem.writeBytes s.i.toNat (decimalDigits (s.reg x))) ∨
    (∃ x, i = .ldMemVx x ∧ t.mem = s.mem.writeBytes s.i.toNat (regsUpTo s x))
  pc : t.pc = s.pc ∨ t.pc = s.pc + 2 ∨ t.pc.toNat ≤ 0x10FE ∨ (∃ a, i = .ret a ∧ t.pc = s.stackAt (s.sp - 1))

/-- An effect on the registers `V` alone. -/
theorem effect_of_v {i : Instr} {s t : State} (h : t = { s with v := t.v }) : Effect i s t := by
  rw [h]
  constructor <;> first | rfl | exact .inl rfl

theorem effect_skip {i : Instr} (c : Bool) (s : State) : Effect i s (if c = true then s.skipNext else s) := by
  cases c
  · exact effect_of_v rfl
  · constructor <;> first | rfl | exact .inl rfl | exact .inr (.inl rfl)

/-- Everything one instruction can answer: its failure, taken on the state as it was, or its effect. -/
theorem exec_cases (i : Instr) (s : State) :
    (∃ k, failure i s = some k ∧ exec i s = .next (s.fail k)) ∨
    (failure i s = none ∧ ∃ t, exec i s = .next t ∧ Effect i s t) := by
  cases i with
  | call nnn =>
    by_cases h : s.sp = 15
    · exact .inl ⟨_, if_pos h, execCall_of_full h⟩
    · refine .inr ⟨if_neg h, _, execCall_of_room h, ?_⟩
      have hn : (addrValue nnn).toNat ≤ 0x10FE := by
        have := nnn.isLt
        rw [toNat_addrValue]
        omega
      constructor <;> first | rfl | exact .inl rfl | skip
      · exact .inr (.inl ⟨nnn, rfl, rfl⟩)
      · exact .inr ⟨nnn, rfl, rfl⟩
      · exact .inr (.inr (.inl hn))
  | ret a =>
    by_cases h : s.sp = 0
    · exact .inl ⟨_, if_pos h, execRet_of_empty h⟩
    · refine .inr ⟨if_neg h, _, execRet_of_entry h, ?_⟩
      constructor <;> first | rfl | exact .inl rfl | skip
      · exact .inr (.inr ⟨a, rfl, rfl⟩)
      · exact .inr (.inr (.inr ⟨a, rfl, rfl⟩))
  | jp nnn =>
    refine .inr ⟨rfl, _, rfl, ?_⟩
    have hn : (addrValue nnn).toNat ≤ 0x10FE := by
      have := nnn.isLt
      rw [toNat_addrValue]
      omega
    constructor <;> first | rfl | exact .inl rfl | exact .inr (.inr (.inl hn))
  | jpV0 nnn =>
    refine .inr ⟨rfl, _, rfl, ?_⟩
    have hn : (addrValue nnn + wordValue (s.reg 0)).toNat ≤ 0x10FE := by
      have := nnn.isLt
      have := (s.reg 0).isLt
      rw [BitVec.toNat_add, toNat_addrValue, toNat_wordValue]
      omega
    constructor <;> first | rfl | exact .inl rfl | exact .inr (.inr (.inl hn))
  | drw x y n =>
    rcases withBytesAtI_cases (countValue n) s (.next _) with ⟨hr, h⟩ | ⟨hr, h⟩
    · refine .inr ⟨if_neg (by simp only [countValue] at hr; omega), _, h, ?_⟩
      constructor <;> first | rfl | exact .inl rfl | exact .inr (.inr ⟨x, y, n, rfl⟩)
    · exact .inl ⟨_, if_pos hr, h⟩
  | ldB x =>
    rcases storeAtI_cases (decimalDigits (s.reg x)) s with ⟨hr, h⟩ | ⟨hr, h⟩
    · refine .inr ⟨if_neg (by simp at hr; omega), _, h, ?_⟩
      constructor <;> first | rfl | exact .inl rfl | exact .inr (.inl ⟨x, rfl, rfl⟩)
    · exact .inl ⟨_, if_pos hr.2, h⟩
  | ldMemVx x =>
    rcases storeAtI_cases (regsUpTo s x) s with ⟨hr, h⟩ | ⟨hr, h⟩
    · refine .inr ⟨if_neg (by simp at hr; omega), _, h, ?_⟩
      constructor <;> first | rfl | exact .inl rfl | exact .inr (.inr ⟨x, rfl, rfl⟩)
    · exact .inl ⟨_, if_pos (by simpa using hr), h⟩
  | ldVxMem x =>
    rcases withBytesAtI_cases (countValue x + 1) s (.next _) with ⟨hr, h⟩ | ⟨hr, h⟩
    · refine .inr ⟨if_neg (by simp only [countValue] at hr; omega), _, h, effect_of_v (loadRegs_eq _ _ _)⟩
    · exact .inl ⟨_, if_pos hr.2, h⟩
  | ldVxK x =>
    refine .inr ⟨rfl, ?_⟩
    cases hk : s.lowestKey with
    | none =>
      refine ⟨s.setEngine .awaitingKey, by simp only [exec, execLdVxK, hk], ?_⟩
      constructor <;> first | rfl | exact .inl rfl | exact .inr ⟨x, rfl⟩
    | some k =>
      refine ⟨(s.setReg x (k.setWidth 8)).setEngine .running, by simp only [exec, execLdVxK, hk], ?_⟩
      constructor <;> first | rfl | exact .inl rfl | exact .inr ⟨x, rfl⟩
  | seImm x nn => exact .inr ⟨rfl, _, rfl, effect_skip _ s⟩
  | sneImm x nn => exact .inr ⟨rfl, _, rfl, effect_skip _ s⟩
  | seReg x y n => exact .inr ⟨rfl, _, rfl, effect_skip _ s⟩
  | sneReg x y n => exact .inr ⟨rfl, _, rfl, effect_skip _ s⟩
  | skp x => exact .inr ⟨rfl, _, rfl, effect_skip _ s⟩
  | sknp x => exact .inr ⟨rfl, _, rfl, effect_skip _ s⟩
  | _ =>
    refine .inr ⟨rfl, _, rfl, ?_⟩
    constructor <;> first | rfl | exact .inl rfl | exact .inr ⟨_, rfl⟩ | exact .inr ⟨_, rfl, rfl⟩ |
      exact .inr (.inl ⟨_, rfl⟩) | exact .inr (.inr (.inl ⟨_, rfl⟩)) | exact .inr (.inr (.inr ⟨_, rfl⟩))

theorem exec_of_failure {i : Instr} {s : State} {k : Failure} (h : failure i s = some k) :
    exec i s = .next (s.fail k) := by
  rcases exec_cases i s with ⟨j, hj, e⟩ | ⟨hn, -⟩
  · rw [e, ← Option.some.inj (h.symm.trans hj)]
  · rw [h] at hn
    exact absurd hn (by simp)

/-! ## Which registers an instruction may write (R12) -/

end Sys2Proof.Machine
end

