-- ==== Sys2Proof/Laws/Framebuffer.lean ====
section
/-! SUPPORT. Drawing in closed form. The meaning of `DRW` draws pixel by pixel (spec/44_display.md R151); here
it is the list of the screen positions that a sprite bit 1 falls on, no two the same pixel, each inverted once. -/

namespace Sys2Proof.Machine

/-- Two screen positions name the same pixel. -/
def SamePixel (p q : Nat × Nat) : Prop := p.1 % 64 = q.1 % 64 ∧ p.2 % 32 = q.2 % 32

theorem pixel_eq_getElem (fb : Frame) {x y : Nat} (hx : x < 64) (hy : y < 32) : fb.pixel x y = fb[y][x] := by
  simp [Frame.pixel, Nat.mod_eq_of_lt hx, Nat.mod_eq_of_lt hy]

theorem pixel_congr (fb : Frame) {p q : Nat × Nat} (h : SamePixel p q) : fb.pixel p.1 p.2 = fb.pixel q.1 q.2 := by
  simp [Frame.pixel, h.1, h.2]

theorem pixel_flip_same (fb : Frame) {p q : Nat × Nat} (h : SamePixel p q) :
    (fb.flip p.1 p.2).pixel q.1 q.2 = !fb.pixel q.1 q.2 := by
  rw [← pixel_congr fb h]
  simp [Frame.flip, Frame.pixel, ← h.1, ← h.2]

theorem pixel_flip_ne (fb : Frame) {p q : Nat × Nat} (h : ¬ SamePixel p q) :
    (fb.flip p.1 p.2).pixel q.1 q.2 = fb.pixel q.1 q.2 := by
  by_cases hy : p.2 % 32 = q.2 % 32
  · have hx : p.1 % 64 ≠ q.1 % 64 := fun hx => h ⟨hx, hy⟩
    simp [Frame.flip, Frame.pixel, hy, hx]
  · simp [Frame.flip, Frame.pixel, hy]

/-- Two framebuffers with the same pixels are the same. -/
theorem frame_ext {fb gb : Frame} (h : ∀ y x, (hy : y < 32) → (hx : x < 64) → fb[y][x] = gb[y][x]) : fb = gb := by
  apply Vector.ext
  intro y hy
  apply Vector.ext
  intro x hx
  exact h y x hy hx

/-! ## The positions a sprite touches -/

/-- The positions of the bits 1 among `k` columns of a sprite byte from column `c` on. -/
def columnPixels (b : Byte) (x0 y : Nat) : Nat → Nat → List (Nat × Nat)
  | _, 0 => []
  | c, k + 1 => (if spriteBit b c then [(x0 + c, y)] else []) ++ columnPixels b x0 y (c + 1) k

/-- The positions of the bits 1 of a sprite whose first row is at `y`. -/
def spritePixels (x0 : Nat) : Nat → List Byte → List (Nat × Nat)
  | _, [] => []
  | y, b :: bs => columnPixels b x0 y 0 8 ++ spritePixels x0 (y + 1) bs

/-- Each position inverted in turn. -/
def invertAll (l : List (Nat × Nat)) (d : Drawing) : Drawing :=
  l.foldl (fun d p => drawBit true p.1 p.2 d) d

theorem invertAll_append (l m : List (Nat × Nat)) (d : Drawing) :
    invertAll (l ++ m) d = invertAll m (invertAll l d) := by
  simp [invertAll]

theorem drawColumns_eq (b : Byte) (x0 y c k : Nat) (d : Drawing) :
    drawColumns b x0 y c k d = invertAll (columnPixels b x0 y c k) d := by
  induction k generalizing c d with
  | zero => rfl
  | succ k ih =>
    rw [drawColumns, columnPixels, invertAll_append, ih]
    cases h : spriteBit b c <;> simp [invertAll, drawBit]

theorem drawRows_eq (x0 y : Nat) (bs : List Byte) (d : Drawing) :
    drawRows x0 y bs d = invertAll (spritePixels x0 y bs) d := by
  induction bs generalizing y d with
  | nil => rfl
  | cons b bs ih => rw [drawRows, spritePixels, invertAll_append, ih, drawColumns_eq]

theorem mem_columnPixels (b : Byte) (x0 y c k : Nat) (p : Nat × Nat) :
    p ∈ columnPixels b x0 y c k ↔ ∃ j, c ≤ j ∧ j < c + k ∧ spriteBit b j = true ∧ p = (x0 + j, y) := by
  induction k generalizing c with
  | zero =>
    simp only [columnPixels, List.not_mem_nil, Nat.add_zero, false_iff, not_exists, not_and]
    omega
  | succ k ih =>
    rw [columnPixels, List.mem_append, ih]
    constructor
    · rintro (h | ⟨j, h1, h2, h3, h4⟩)
      · split at h
        next hb => exact ⟨c, by omega, by omega, hb, by simpa using h⟩
        next => exact absurd h (by simp)
      · exact ⟨j, by omega, by omega, h3, h4⟩
    · rintro ⟨j, h1, h2, h3, h4⟩
      by_cases hj : j = c
      · subst hj
        simp [h3, h4]
      · exact .inr ⟨j, by omega, by omega, h3, h4⟩

theorem mem_spritePixels (x0 y : Nat) (bs : List Byte) (p : Nat × Nat) :
    p ∈ spritePixels x0 y bs ↔
      ∃ r c, r < bs.length ∧ c < 8 ∧ spriteBit (bs.getD r 0) c = true ∧ p = (x0 + c, y + r) := by
  induction bs generalizing y with
  | nil => simp [spritePixels]
  | cons b bs ih =>
    rw [spritePixels, List.mem_append, mem_columnPixels, ih]
    constructor
    · rintro (⟨c, _, h2, h3, h4⟩ | ⟨r, c, h1, h2, h3, h4⟩)
      · exact ⟨0, c, by simp, by omega, by simpa using h3, h4⟩
      · exact ⟨r + 1, c, by simpa using h1, h2, by simpa using h3, by rw [h4]; congr 1; omega⟩
    · rintro ⟨r, c, h1, h2, h3, h4⟩
      cases r with
      | zero => exact .inl ⟨c, by omega, by omega, by simpa using h3, h4⟩
      | succ r =>
        exact .inr ⟨r, c, by simpa using h1, h2, by simpa using h3, by rw [h4]; congr 1; omega⟩

theorem columnPixels_apart (b : Byte) (x0 y c k : Nat) (h : c + k ≤ 8) :
    (columnPixels b x0 y c k).Pairwise (fun p q => ¬ SamePixel p q) := by
  induction k generalizing c with
  | zero => exact List.Pairwise.nil
  | succ k ih =>
    rw [columnPixels, List.pairwise_append]
    refine ⟨?_, ih (c + 1) (by omega), ?_⟩
    · split <;> simp
    · intro p hp q hq hs
      rw [mem_columnPixels] at hq
      obtain ⟨j, h1, h2, -, rfl⟩ := hq
      split at hp
      next =>
        have hp' : p = (x0 + c, y) := by simpa using hp
        subst hp'
        have hx : (x0 + c) % 64 = (x0 + j) % 64 := hs.1
        omega
      next => exact absurd hp (by simp)

/-- "The sprite never overlaps itself" (R151). -/
theorem spritePixels_apart (x0 y : Nat) (bs : List Byte) (h : bs.length ≤ 32) :
    (spritePixels x0 y bs).Pairwise (fun p q => ¬ SamePixel p q) := by
  induction bs generalizing y with
  | nil => exact List.Pairwise.nil
  | cons b bs ih =>
    simp only [List.length_cons] at h
    rw [spritePixels, List.pairwise_append]
    refine ⟨columnPixels_apart b x0 y 0 8 (by omega), ih (y + 1) (by omega), ?_⟩
    intro p hp q hq hs
    rw [mem_columnPixels] at hp
    rw [mem_spritePixels] at hq
    obtain ⟨j, -, -, -, rfl⟩ := hp
    obtain ⟨r, c, hr, -, -, rfl⟩ := hq
    have hy : y % 32 = (y + 1 + r) % 32 := hs.2
    omega

/-! ## Inverting positions no two of which are the same pixel -/

theorem pixel_invertAll_of_mem {l : List (Nat × Nat)} (hl : l.Pairwise (fun p q => ¬ SamePixel p q))
    (d : Drawing) {q : Nat × Nat} (h : ∃ p ∈ l, SamePixel p q) :
    (invertAll l d).fb.pixel q.1 q.2 = !d.fb.pixel q.1 q.2 := by
  have keep : ∀ (l : List (Nat × Nat)) (d : Drawing), (∀ p ∈ l, ¬ SamePixel p q) →
      (invertAll l d).fb.pixel q.1 q.2 = d.fb.pixel q.1 q.2 := by
    intro l
    induction l with
    | nil => intro d _; rfl
    | cons p l ih =>
      intro d h
      have h1 := ih (drawBit true p.1 p.2 d) (fun p' hp' => h p' (List.mem_cons_of_mem _ hp'))
      rw [show invertAll (p :: l) d = invertAll l (drawBit true p.1 p.2 d) from rfl, h1]
      exact pixel_flip_ne d.fb (h p (by simp))
  induction l generalizing d with
  | nil =>
    obtain ⟨p, hp, -⟩ := h
    exact absurd hp (by simp)
  | cons p l ih =>
    have hhead := (List.pairwise_cons.1 hl).1
    have htail := (List.pairwise_cons.1 hl).2
    rw [show invertAll (p :: l) d = invertAll l (drawBit true p.1 p.2 d) from rfl]
    by_cases hp : SamePixel p q
    · rw [keep l _ (fun p' hp' hs => hhead p' hp' ⟨hp.1.trans hs.1.symm, hp.2.trans hs.2.symm⟩)]
      exact pixel_flip_same d.fb hp
    · obtain ⟨p', hp', hs⟩ := h
      have hmem : p' ∈ l := by
        rcases List.mem_cons.1 hp' with rfl | hp'
        · exact absurd hs hp
        · exact hp'
      rw [ih htail (drawBit true p.1 p.2 d) ⟨p', hmem, hs⟩]
      exact congrArg (fun c => !c) (pixel_flip_ne d.fb hp)

theorem pixel_invertAll_of_not_mem {l : List (Nat × Nat)} (d : Drawing) {q : Nat × Nat}
    (h : ∀ p ∈ l, ¬ SamePixel p q) : (invertAll l d).fb.pixel q.1 q.2 = d.fb.pixel q.1 q.2 := by
  induction l generalizing d with
  | nil => rfl
  | cons p l ih =>
    rw [show invertAll (p :: l) d = invertAll l (drawBit true p.1 p.2 d) from rfl,
      ih _ (fun p' hp' => h p' (List.mem_cons_of_mem _ hp'))]
    exact pixel_flip_ne d.fb (h p (by simp))

/-- A collision: some inverted position was on (R151). -/
theorem collision_invertAll {l : List (Nat × Nat)} (hl : l.Pairwise (fun p q => ¬ SamePixel p q)) (d : Drawing) :
    (invertAll l d).collision = true ↔ d.collision = true ∨ ∃ p ∈ l, d.fb.pixel p.1 p.2 = true := by
  induction l generalizing d with
  | nil => simp [invertAll]
  | cons p l ih =>
    have hhead := (List.pairwise_cons.1 hl).1
    rw [show invertAll (p :: l) d = invertAll l (drawBit true p.1 p.2 d) from rfl,
      ih (List.pairwise_cons.1 hl).2]
    have hpix : ∀ q ∈ l, (drawBit true p.1 p.2 d).fb.pixel q.1 q.2 = d.fb.pixel q.1 q.2 :=
      fun q hq => pixel_flip_ne d.fb (hhead q hq)
    have hcol : (drawBit true p.1 p.2 d).collision = (d.collision || d.fb.pixel p.1 p.2) := rfl
    rw [hcol, Bool.or_eq_true]
    constructor
    · rintro ((h | h) | ⟨q, hq, h⟩)
      · exact .inl h
      · exact .inr ⟨p, by simp, h⟩
      · exact .inr ⟨q, by simp [hq], by rw [← hpix q hq, h]⟩
    · rintro (h | ⟨q, hq, h⟩)
      · exact .inl (.inl h)
      · rcases List.mem_cons.1 hq with rfl | hq
        · exact .inl (.inr h)
        · exact .inr ⟨q, hq, by rw [hpix q hq, h]⟩

/-! ## `DRW` in closed form -/

/-- The positions that `DRW Vx, Vy, N` inverts. -/
def drwPixels (x y n : Nibble) (s : State) : List (Nat × Nat) :=
  spritePixels ((s.reg x).toNat % 64) ((s.reg y).toNat % 32) (bytesAtI s n.toNat)

theorem drwPixels_apart (x y n : Nibble) (s : State) :
    (drwPixels x y n s).Pairwise (fun p q => ¬ SamePixel p q) := by
  have := n.isLt
  exact spritePixels_apart _ _ _ (by rw [length_bytesAtI]; omega)

theorem execDrw_of_inRange {x y n : Nibble} {s : State} (h : n = 0 ∨ s.i.toNat + n.toNat - 1 < 4096) :
    execDrw x y n s =
      .next ((s.setFb (invertAll (drwPixels x y n s) ⟨s.fb, false⟩).fb).setFlag
        (flagOf (invertAll (drwPixels x y n s) ⟨s.fb, false⟩).collision)) := by
  rw [drwPixels, ← drawRows_eq]
  refine withBytesAtI_of_inRange ?_
  rcases h with rfl | h
  · exact .inl rfl
  · simp only [countValue]
    omega

end Sys2Proof.Machine
end

