-- ==== Sys2Proof/Laws/PerInstr.lean ====
section
/-! SUPPORT. The family `RoundTrip` of LAWS.json: a well-formed instruction's word decodes to it, one lemma
per constructor of `Instr`. -/

namespace Sys2Proof.Laws.RoundTrip

/-- The word of a well-formed instruction decodes to the instruction (spec/30_encoding.md R65). -/
def Statement (i : Instr) : Prop := i.wellFormed = true → decodeWord (encode i) = i

theorem cls (x : Nibble) : Statement (.cls x) := fun _ => by
  simp [encode, decodeWord, decodeFamily0]

theorem ret (x : Nibble) : Statement (.ret x) := fun _ => by
  simp [encode, decodeWord, decodeFamily0]

theorem jp (nnn : Addr) : Statement (.jp nnn) := fun _ => by
  simp [encode, decodeWord]

theorem call (nnn : Addr) : Statement (.call nnn) := fun _ => by
  simp [encode, decodeWord]

theorem seImm (x : Nibble) (nn : Byte) : Statement (.seImm x nn) := fun _ => by
  simp [encode, decodeWord]

theorem sneImm (x : Nibble) (nn : Byte) : Statement (.sneImm x nn) := fun _ => by
  simp [encode, decodeWord]

theorem seReg (x y n : Nibble) : Statement (.seReg x y n) := fun _ => by
  simp [encode, decodeWord]

theorem ldImm (x : Nibble) (nn : Byte) : Statement (.ldImm x nn) := fun _ => by
  simp [encode, decodeWord]

theorem addImm (x : Nibble) (nn : Byte) : Statement (.addImm x nn) := fun _ => by
  simp [encode, decodeWord]

theorem ldReg (x y : Nibble) : Statement (.ldReg x y) := fun _ => by
  simp [encode, decodeWord, decodeFamily8]

theorem orReg (x y : Nibble) : Statement (.orReg x y) := fun _ => by
  simp [encode, decodeWord, decodeFamily8]

theorem andReg (x y : Nibble) : Statement (.andReg x y) := fun _ => by
  simp [encode, decodeWord, decodeFamily8]

theorem xorReg (x y : Nibble) : Statement (.xorReg x y) := fun _ => by
  simp [encode, decodeWord, decodeFamily8]

theorem addReg (x y : Nibble) : Statement (.addReg x y) := fun _ => by
  simp [encode, decodeWord, decodeFamily8]

theorem subReg (x y : Nibble) : Statement (.subReg x y) := fun _ => by
  simp [encode, decodeWord, decodeFamily8]

theorem shr (x y : Nibble) : Statement (.shr x y) := fun _ => by
  simp [encode, decodeWord, decodeFamily8]

theorem subnReg (x y : Nibble) : Statement (.subnReg x y) := fun _ => by
  simp [encode, decodeWord, decodeFamily8]

theorem shl (x y : Nibble) : Statement (.shl x y) := fun _ => by
  simp [encode, decodeWord, decodeFamily8]

theorem sneReg (x y n : Nibble) : Statement (.sneReg x y n) := fun _ => by
  simp [encode, decodeWord]

theorem ldI (nnn : Addr) : Statement (.ldI nnn) := fun _ => by
  simp [encode, decodeWord]

theorem jpV0 (nnn : Addr) : Statement (.jpV0 nnn) := fun _ => by
  simp [encode, decodeWord]

theorem rnd (x : Nibble) (nn : Byte) : Statement (.rnd x nn) := fun _ => by
  simp [encode, decodeWord]

theorem drw (x y n : Nibble) : Statement (.drw x y n) := fun _ => by
  simp [encode, decodeWord]

theorem skp (x : Nibble) : Statement (.skp x) := fun _ => by
  simp [encode, decodeWord, decodeFamilyE]

theorem sknp (x : Nibble) : Statement (.sknp x) := fun _ => by
  simp [encode, decodeWord, decodeFamilyE]

theorem ldVxDt (x : Nibble) : Statement (.ldVxDt x) := fun _ => by
  simp [encode, decodeWord, decodeFamilyF]

theorem ldVxK (x : Nibble) : Statement (.ldVxK x) := fun _ => by
  simp [encode, decodeWord, decodeFamilyF]

theorem ldDtVx (x : Nibble) : Statement (.ldDtVx x) := fun _ => by
  simp [encode, decodeWord, decodeFamilyF]

theorem ldStVx (x : Nibble) : Statement (.ldStVx x) := fun _ => by
  simp [encode, decodeWord, decodeFamilyF]

theorem addI (x : Nibble) : Statement (.addI x) := fun _ => by
  simp [encode, decodeWord, decodeFamilyF]

theorem ldF (x : Nibble) : Statement (.ldF x) := fun _ => by
  simp [encode, decodeWord, decodeFamilyF]

theorem ldB (x : Nibble) : Statement (.ldB x) := fun _ => by
  simp [encode, decodeWord, decodeFamilyF]

theorem ldMemVx (x : Nibble) : Statement (.ldMemVx x) := fun _ => by
  simp [encode, decodeWord, decodeFamilyF]

theorem ldVxMem (x : Nibble) : Statement (.ldVxMem x) := fun _ => by
  simp [encode, decodeWord, decodeFamilyF]

theorem nop (w : Word) : Statement (.nop w) := fun h => decodeWord_of_isNopWord h

end Sys2Proof.Laws.RoundTrip
end

