-- ==== Sys2Proof/Laws/Step.lean ====
section
/-! SUPPORT. What a step can do, said once: the fetch phase, `Clock()`, and the step by the host's command. -/

namespace Sys2Proof.Machine

/-! ## The fetch phase (R82, R83) -/

theorem canFetch_iff (s : State) : canFetch s = true ↔ s.pc.toNat + 1 < 4096 := by
  rw [canFetch, inRange_iff]
  omega

/-- The state the fetch phase leaves in `Running`. -/
def State.fetched (s : State) : State := (s.setOpcode (fetchWord s)).setPc (s.pc + 2)

theorem fetchPhase_running {s : State} (he : s.engine = .running) (hp : s.pc.toNat + 1 < 4096) :
    fetchPhase s = .ok s.fetched := by
  simp [fetchPhase, he, (canFetch_iff s).2 hp, State.fetched]

theorem fetchPhase_beyond {s : State} (he : s.engine = .running) (hp : 4096 ≤ s.pc.toNat + 1) :
    fetchPhase s = .error .addressOutOfRange := by
  have h : ¬ canFetch s = true := fun h => by
    have := (canFetch_iff s).1 h
    omega
  simp [fetchPhase, he, h]

theorem fetchPhase_awaiting {s : State} (he : s.engine = .awaitingKey) : fetchPhase s = .ok s := by
  simp [fetchPhase, he]

/-! ## `Clock()` (R81) -/

theorem clock_running {s : State} (he : s.engine = .running) (hp : s.pc.toNat + 1 < 4096) :
    clock s = exec (decodeWord (fetchWord s)) (s.setReply .ok).fetched := by
  rw [clock, fetchPhase_running (s := s.setReply .ok) he hp]
  rfl

theorem clock_beyond {s : State} (he : s.engine = .running) (hp : 4096 ≤ s.pc.toNat + 1) :
    clock s = raise .addressOutOfRange s := by
  rw [clock, fetchPhase_beyond (s := s.setReply .ok) he hp]

theorem clock_awaiting {s : State} (he : s.engine = .awaitingKey) :
    clock s = exec (decodeWord s.opcode) (s.setReply .ok) := by
  rw [clock, fetchPhase_awaiting (s := s.setReply .ok) he]
  rfl

/-- The three things a `Clock()` can do. -/
theorem clock_cases (s : State) :
    (s.engine = .running ∧ s.pc.toNat + 1 < 4096 ∧
      clock s = exec (decodeWord (fetchWord s)) (s.setReply .ok).fetched) ∨
    (s.engine = .running ∧ 4096 ≤ s.pc.toNat + 1 ∧ clock s = raise .addressOutOfRange s) ∨
    (s.engine = .awaitingKey ∧ clock s = exec (decodeWord s.opcode) (s.setReply .ok)) := by
  cases he : s.engine with
  | running =>
    by_cases hp : s.pc.toNat + 1 < 4096
    · exact .inl ⟨rfl, hp, clock_running he hp⟩
    · have hp' : 4096 ≤ s.pc.toNat + 1 := by omega
      exact .inr (.inl ⟨rfl, hp', clock_beyond he hp'⟩)
  | awaitingKey => exact .inr (.inr ⟨rfl, clock_awaiting he⟩)

/-! ## The held word of a key wait (R89) -/

theorem decodeWord_of_keyWait {w : Word} (h : w &&& 0xF0FF = 0xF00A) : decodeWord w = .ldVxK (fieldX w) := by
  obtain ⟨ht, -, hn⟩ := (and_F0FF_eq_iff w 0xF00A).1 h
  have ht' : fieldT w = 0xF#4 := ht
  have hn' : fieldNN w = 0x0A#8 := hn
  simp [decodeWord, decodeFamilyF, ht', hn']

theorem keyWait_of_decodeWord {w : Word} {x : Nibble} (h : decodeWord w = .ldVxK x) : w &&& 0xF0FF = 0xF00A := by
  rw [and_F0FF_eq_iff]
  unfold decodeWord decodeFamily0 decodeFamily8 decodeFamilyE decodeFamilyF at h
  rcases nibble_cases (fieldT w) with ht | ht | ht | ht | ht | ht | ht | ht | ht | ht | ht | ht | ht |
    ht | ht | ht
  case inr.inr.inr.inr.inr.inr.inr.inr.inr.inr.inr.inr.inr.inr.inr =>
    by_cases hn : fieldNN w = 0x0A
    · exact ⟨ht, rfl, hn⟩
    · simp only [BitVec.ofNat_eq_ofNat] at hn
      simp [ht, hn] at h
      split_ifs at h
  all_goals
    simp [ht] at h
  all_goals
    split_ifs at h

/-! ## The other commands, everything each can do -/

theorem fetchCommand_cases (s : State) :
    (s.engine = .running ∧ s.pc.toNat + 1 < 4096 ∧ fetchCommand s = .next (s.setReply .ok).fetched) ∨
    (s.engine = .running ∧ 4096 ≤ s.pc.toNat + 1 ∧ fetchCommand s = .next (s.fail .addressOutOfRange)) ∨
    (s.engine = .awaitingKey ∧ fetchCommand s = .next (s.setReply .ok)) := by
  cases he : s.engine with
  | running =>
    by_cases hp : s.pc.toNat + 1 < 4096
    · exact .inl ⟨rfl, hp, by rw [fetchCommand, fetchPhase_running (s := s.setReply .ok) he hp]⟩
    · have hp' : 4096 ≤ s.pc.toNat + 1 := by omega
      exact .inr (.inl ⟨rfl, hp', by rw [fetchCommand, fetchPhase_beyond (s := s.setReply .ok) he hp']; rfl⟩)
  | awaitingKey => exact .inr (.inr ⟨rfl, by rw [fetchCommand, fetchPhase_awaiting (s := s.setReply .ok) he]⟩)

theorem setKeypress_cases (key : Int) (pressed : Bool) (s : State) :
    ((key < 0 ∨ 15 < key) ∧ setKeypress key pressed s = .next (s.fail .invalidArgument)) ∨
    (¬ (key < 0 ∨ 15 < key) ∧
      setKeypress key pressed s = .next ((s.setKey (BitVec.ofInt 4 key) pressed).setReply .ok)) := by
  by_cases h : key < 0 ∨ key > 15
  · exact .inl ⟨h, if_pos h⟩
  · exact .inr ⟨h, if_neg h⟩

theorem loadRom_cases (bytes : List Byte) (s : State) :
    (3584 < bytes.length ∧ loadRom bytes s = .next (s.fail .capacityExceeded)) ∨
    (bytes.length ≤ 3584 ∧ loadRom bytes s =
      .next (((s.setMem (s.mem.writeBytes 0x200 bytes)).setRomLen bytes.length).setReply .ok)) := by
  by_cases h : bytes.length > Config.romMax
  · exact .inl ⟨h, if_pos h⟩
  · exact .inr ⟨Nat.not_lt.1 h, if_neg h⟩

theorem toNat_countDown (b : Byte) : (countDown b).toNat = b.toNat - 1 := by
  unfold countDown
  split
  next h => rw [h]; rfl
  next h => exact toNat_decr h

/-! ## The step by the host's command -/

theorem step_of_command {s : State} {c : Command} (h : nextCommand s = c) : step s = runCommand c s.issued := by
  rw [step, h]

end Sys2Proof.Machine
end

