-- ==== Sys2Proof/Tests/Slice0.lean ====
section
/-! SUPPORT. The model's own tests. Expected values are those of spec/95_test_vectors.md, named in each test's
docstring, or worked by hand from the rule named; a test of one step places the word where the next step
fetches it. The second half gives, for every obligation with hypotheses, a state that meets them all. -/

namespace Sys2Proof.Tests

open Sys2Proof Sys2Proof.Machine Sys2Proof.Claim

/-! ## Helpers -/

/-- One step with the word placed where it is fetched; `PC` is `0x200` unless the state says otherwise. -/
def run (w : Nat) (s : State) : Result := step (s.withFetchWord 16 w)

/-- The next state, for a step that answers one. -/
def after (r : Result) : State :=
  match r with
  | .next t => t
  | .fault _ => State.reset
  | .refused _ => State.reset

/-- What a step's next state shows; nothing for a step that stops. -/
def see {α : Type} (f : State → α) (r : Result) : Option α :=
  match r with
  | .next t => some (f t)
  | .fault _ => none
  | .refused _ => none

/-- Power-on with one register set. -/
def oneReg (x : Nibble) (b : Byte) : State := State.reset.setReg x b

/-- Power-on with two registers set. -/
def twoRegs (x : Nibble) (b : Byte) (y : Nibble) (c : Byte) : State := (oneReg x b).setReg y c

/-- Power-on with `SP` and one stack entry set. -/
def withStack (sp : Byte) (k : Fin 16) (w : Word) : State :=
  { State.reset with sp := sp, stack := State.reset.stack.set k.val w k.isLt }

/-- Power-on with `I` at `0x300`, bytes there, and two registers set. -/
def spriteAt (bytes : List Byte) (x : Nibble) (b : Byte) (y : Nibble) (c : Byte) : State :=
  ((twoRegs x b y c).setI 0x300).setMem (Memory.writeBytes [] 0x300 bytes)

/-- Power-on with the keys given pressed. -/
def pressed (ks : List Nibble) : State := ks.foldl (fun s k => s.setKey k true) State.reset

/-- Waiting for a key on the held word `0xF30A`. -/
def waiting (s : State) : State := (s.setOpcode 0xF30A).setEngine .awaitingKey

/-- Power-on with one command pending. -/
def issuing (c : Command) : State := State.reset.setPending [c]

theorem nextCommand_issuing (c : Command) : nextCommand (issuing c) = c := rfl

/-- The columns that are on in a row. -/
def onIn (y : Nat) (s : State) : List Nat := (List.range 64).filter (fun x => s.fb.pixel x y)

/-- `V[x]`, `VF` and `PC` of a state. -/
def resultOf (x : Nibble) (s : State) : Byte × Byte × Word := (s.reg x, s.reg 0xF, s.pc)

/-- The reply, `PC` and `SP` of a state. -/
def controlOf (s : State) : Reply × Word × Byte := (s.reply, s.pc, s.sp)

/-! ## Well-formed terms and decoding -/

/-- R67: a word of a named operation is no `NOP`. -/
theorem test_wellFormed_refuses_named_word_as_nop : (Instr.nop 0x00E0).wellFormed = false := by decide

theorem test_wellFormed_refuses_key_wait_word_as_nop : (Instr.nop 0xF10A).wellFormed = false := by decide

theorem test_wellFormed_accepts_unassigned_word : (Instr.nop 0x8ABF).wellFormed = true := by decide

/-- T-DEC-1, 2, 6. -/
theorem test_decode_family0 : decodeWord 0x00E0 = .cls 0 ∧ decodeWord 0x00EE = .ret 0 ∧
    decodeWord 0x01E0 = .cls 1 ∧ decodeWord 0x0FEE = .ret 0xF := by decide

/-- T-DEC-7 to 13. -/
theorem test_decode_families1to7 : decodeWord 0x1ABC = .jp 0xABC ∧ decodeWord 0x2FFF = .call 0xFFF ∧
    decodeWord 0x3A42 = .seImm 0xA 0x42 ∧ decodeWord 0x4A42 = .sneImm 0xA 0x42 ∧
    decodeWord 0x5120 = .seReg 1 2 0 ∧ decodeWord 0x512F = .seReg 1 2 0xF ∧
    decodeWord 0x6A3C = .ldImm 0xA 0x3C ∧ decodeWord 0x7A3C = .addImm 0xA 0x3C := by decide

/-- T-DEC-14, 15, 16. -/
theorem test_decode_family8 : decodeWord 0x8AB0 = .ldReg 0xA 0xB ∧ decodeWord 0x8AB1 = .orReg 0xA 0xB ∧
    decodeWord 0x8AB2 = .andReg 0xA 0xB ∧ decodeWord 0x8AB3 = .xorReg 0xA 0xB ∧
    decodeWord 0x8AB4 = .addReg 0xA 0xB ∧ decodeWord 0x8AB5 = .subReg 0xA 0xB ∧
    decodeWord 0x8AB6 = .shr 0xA 0xB ∧ decodeWord 0x8AB7 = .subnReg 0xA 0xB ∧
    decodeWord 0x8ABE = .shl 0xA 0xB ∧ decodeWord 0x8AB8 = .nop 0x8AB8 ∧
    decodeWord 0x8ABD = .nop 0x8ABD ∧ decodeWord 0x8ABF = .nop 0x8ABF := by decide

/-- T-DEC-17 to 20. -/
theorem test_decode_families9toD : decodeWord 0x9AB0 = .sneReg 0xA 0xB 0 ∧
    decodeWord 0x9ABC = .sneReg 0xA 0xB 0xC ∧ decodeWord 0xA123 = .ldI 0x123 ∧
    decodeWord 0xB123 = .jpV0 0x123 ∧ decodeWord 0xC1F0 = .rnd 1 0xF0 ∧
    decodeWord 0xD125 = .drw 1 2 5 := by decide

/-- T-DEC-21, 23. -/
theorem test_decode_familiesEandF : decodeWord 0xE19E = .skp 1 ∧ decodeWord 0xE1A1 = .sknp 1 ∧
    decodeWord 0xF107 = .ldVxDt 1 ∧ decodeWord 0xF10A = .ldVxK 1 ∧ decodeWord 0xF115 = .ldDtVx 1 ∧
    decodeWord 0xF118 = .ldStVx 1 ∧ decodeWord 0xF11E = .addI 1 ∧ decodeWord 0xF129 = .ldF 1 ∧
    decodeWord 0xF133 = .ldB 1 ∧ decodeWord 0xF155 = .ldMemVx 1 ∧ decodeWord 0xF165 = .ldVxMem 1 := by decide

/-- T-DEC-3, 4, 5, 22, 24, 25. -/
theorem test_decode_unassigned : [0x0000, 0x0123, 0x00E1, 0x00FE, 0x00C0, 0xE19F, 0xE000, 0xE1A0, 0xF100, 0xF1FF,
    0xF175, 0xF130, 0xF10B, 0xFFFF].all (fun w => decodeWord w == .nop w) = true := by decide

/-- The table's numbering: `opcode[15:12]` is the top nibble of the word stored high byte first (R43, R60). -/
theorem test_decodeTableWord : decodeTableWord 16 0x8AB4 = some (.addReg 0xA 0xB) ∧
    decodeTableWord 16 0x0000 = some (.nop 0) := by decide

theorem test_encodeBytes_high_byte_first : encodeBytes (.ldImm 0xA 0x55) = [0x6A, 0x55] := by decide

/-! ## Fetch (spec/95_test_vectors.md, "Fetch") -/

/-- T-F-2, and R84: the decoded fields. -/
theorem test_fetch_loads_opcode_and_fields :
    see (fun t => (t.opcode, t.fieldX, t.fieldY, t.fieldN, t.fieldNN, t.fieldNNN)) (run 0x60AA State.reset) =
      some (0x60AA, 0, 0xA, 0xA, 0xAA, 0x0AA) := by decide

/-- T-F-1: `Fetch()` executes nothing. -/
theorem test_fetch_command :
    see (resultOf 0) (step { State.reset.withFetchWord 16 0x60AA with pending := [.fetch] }) =
      some (0, 0, 0x202) := by decide

/-- T-F-3. -/
theorem test_fetch_last_word : see controlOf (step (State.reset.setPc 0xFFE)) = some (.ok, 0x1000, 0) := by decide

/-- T-F-4. -/
theorem test_fetch_beyond :
    see controlOf (step (State.reset.setPc 0xFFF)) = some (.err .addressOutOfRange, 0xFFF, 0) := by decide

/-- T-F-6: an odd `PC` is legal (D21). -/
theorem test_fetch_odd_pc : see (resultOf 0xA) (run 0x6A55 (State.reset.setPc 0x203)) = some (0x55, 0, 0x205) := by
  decide

/-! ## Control transfer (T-CF) -/

/-- T-CF-1. -/
theorem test_nop : see (fun t => (controlOf t, t.opcode)) (run 0x0123 State.reset) =
    some ((.ok, 0x202, 0), 0x0123) := by decide

/-- T-CF-2. -/
theorem test_jp : see controlOf (run 0x1234 State.reset) = some (.ok, 0x234, 0) := by decide

/-- T-CF-6. -/
theorem test_call_last_free_entry : see (fun t => (controlOf t, t.stack[14])) (run 0x2300 (withStack 14 0 0)) =
    some ((.ok, 0x300, 15), 0x202) := by decide

/-- T-CF-7. -/
theorem test_call_full : see controlOf (run 0x2300 (withStack 15 0 0)) =
    some (.err .stackOverflow, 0x202, 15) := by decide

/-- T-CF-10, and T-CF-8: the entry is not cleared. -/
theorem test_ret : see (fun t => (controlOf t, t.stack[14])) (run 0x00EE (withStack 15 14 0x456)) =
    some ((.ok, 0x456, 14), 0x456) := by decide

/-- T-CF-9. -/
theorem test_ret_empty : see controlOf (run 0x00EE State.reset) = some (.err .stackUnderflow, 0x202, 0) := by decide

/-- T-CF-12. -/
theorem test_jpV0_not_reduced : see controlOf (run 0xBFFF (oneReg 0 0xFF)) = some (.ok, 0x10FE, 0) := by decide

/-- T-CF-13, 14. -/
theorem test_seImm : see State.pc (run 0x332A (oneReg 3 0x2A)) = some 0x204 ∧
    see State.pc (run 0x332A (oneReg 3 0x2B)) = some 0x202 := by decide

/-- T-CF-15, 16. -/
theorem test_sneImm : see State.pc (run 0x432A (oneReg 3 0x2A)) = some 0x202 ∧
    see State.pc (run 0x432A State.reset) = some 0x204 := by decide

/-- T-CF-17, 18. -/
theorem test_seReg : see State.pc (run 0x5120 (twoRegs 1 7 2 7)) = some 0x204 ∧
    see State.pc (run 0x5120 (twoRegs 1 7 2 8)) = some 0x202 := by decide

/-- T-CF-20, 21. -/
theorem test_sneReg : see State.pc (run 0x9120 (twoRegs 1 7 2 8)) = some 0x204 ∧
    see State.pc (run 0x9550 (oneReg 5 3)) = some 0x202 := by decide

/-! ## Arithmetic and logic (T-A); each result is `Vx`, `VF`, `PC` -/

/-- T-A-2. -/
theorem test_ldImm : see (resultOf 0xF) (run 0x6F07 State.reset) = some (7, 7, 0x202) := by decide

/-- T-A-3: no carry out of the immediate form. -/
theorem test_addImm : see (resultOf 0) (run 0x7002 (oneReg 0 0xFF)) = some (1, 0, 0x202) := by decide

/-- T-A-6. -/
theorem test_ldReg : see (resultOf 1) (run 0x8120 (oneReg 2 0x11)) = some (0x11, 0, 0x202) := by decide

/-- T-A-7: `VF` keeps its 1 (D9). -/
theorem test_orReg : see (resultOf 1) (run 0x8121 ((twoRegs 1 0xF0 2 0x0F).setReg 0xF 1)) = some (0xFF, 1, 0x202) := by
  decide

/-- T-A-8. -/
theorem test_andReg : see (resultOf 1) (run 0x8122 (twoRegs 1 0xF0 2 0x3C)) = some (0x30, 0, 0x202) := by decide

/-- T-A-9. -/
theorem test_xorReg : see (resultOf 1) (run 0x8123 (twoRegs 1 0xF0 2 0x3C)) = some (0xCC, 0, 0x202) := by decide

/-- T-A-12 (E1), T-A-13. -/
theorem test_addReg : see (resultOf 0) (run 0x8014 (twoRegs 0 0xFF 1 1)) = some (0, 1, 0x202) ∧
    see (resultOf 0) (run 0x8014 (twoRegs 0 0x7F 1 0x80)) = some (0xFF, 0, 0x202) := by decide

/-- R88, D8: `ADD VF, V1` leaves the sum, not the carry, in `VF`. -/
theorem test_addReg_into_flag : see (resultOf 0xF) (run 0x8F14 (twoRegs 0xF 0xFF 1 3)) = some (2, 2, 0x202) := by decide

/-- T-A-18 (E2), T-A-20. -/
theorem test_subReg : see (resultOf 0) (run 0x8015 (twoRegs 0 5 1 9)) = some (0xFC, 0, 0x202) ∧
    see (resultOf 0) (run 0x8015 (twoRegs 0 7 1 7)) = some (0, 1, 0x202) := by decide

/-- T-A-25, 26. -/
theorem test_subnReg : see (resultOf 0) (run 0x8017 (twoRegs 0 5 1 9)) = some (4, 1, 0x202) ∧
    see (resultOf 0) (run 0x8017 (twoRegs 0 9 1 5)) = some (0xFC, 0, 0x202) := by decide

/-- T-A-29 (E3), T-A-34: `Y` is ignored (D10). -/
theorem test_shr : see (resultOf 2) (run 0x8206 (oneReg 2 3)) = some (1, 1, 0x202) ∧
    see (resultOf 2) (run 0x8236 (twoRegs 2 4 3 0xFF)) = some (2, 0, 0x202) := by decide

/-- T-A-35 (E3). -/
theorem test_shl : see (resultOf 2) (run 0x820E (oneReg 2 0x81)) = some (2, 1, 0x202) := by decide

/-- R131: a mask of 0 gives 0, and a byte is drawn all the same. -/
theorem test_rnd_mask_zero : see (fun t => t.draws) (run 0xC000 (oneReg 0 5)) = some 1 := by decide

/-! ## Address register and memory (T-M) -/

/-- T-M-2. -/
theorem test_ldI : see State.i (run 0xAFFF State.reset) = some 0x0FFF := by decide

/-- T-M-4, 5. -/
theorem test_addI : see (fun t => (t.i, t.reg 0xF)) (run 0xF11E ((oneReg 1 5).setI 0xFFE)) = some (0x1003, 0) ∧
    see State.i (run 0xF11E ((oneReg 1 2).setI 0xFFFF)) = some 1 := by decide

/-- T-M-8, 9. -/
theorem test_ldF : see State.i (run 0xF429 (oneReg 4 0x0F)) = some 0x9B ∧
    see State.i (run 0xF429 (oneReg 4 0x1A)) = some 0x82 := by decide

/-- T-M-15. -/
theorem test_ldB_top_of_memory :
    see (fun t => (t.mem.read 0xFFD, t.mem.read 0xFFE, t.mem.read 0xFFF)) (run 0xF033 ((oneReg 0 123).setI 0xFFD)) =
      some (1, 2, 3) := by decide

/-- T-M-16. -/
theorem test_ldB_beyond : see (fun t => (t.mem.read 0xFFE, controlOf t)) (run 0xF033 ((oneReg 0 123).setI 0xFFE)) =
    some (0, .err .addressOutOfRange, 0x202, 0) := by decide

/-- T-M-17. -/
theorem test_ldMemVx :
    see (fun t => ((List.range 4).map (fun k => t.mem.read (0x300 + k)), t.i))
      (run 0xF255 ((((twoRegs 0 1 1 5).setReg 2 7).setReg 3 9).setI 0x300)) = some ([1, 5, 7, 0], 0x300) := by decide

/-- T-M-20. -/
theorem test_ldMemVx_beyond : see controlOf (run 0xFF55 (State.reset.setI 0xFF1)) =
    some (.err .addressOutOfRange, 0x202, 0) := by decide

/-- T-M-24: the glyph `0` (G2). -/
theorem test_ldVxMem_glyph : see (fun t => (List.range 6).map (fun k => t.reg (BitVec.ofNat 4 k)))
    (run 0xF465 ((oneReg 5 0xEE).setI 0x050)) = some [0xF0, 0x90, 0x90, 0x90, 0xF0, 0xEE] := by decide

/-- T-M-23. -/
theorem test_ldVxMem_beyond : see (fun t => (t.reg 0, t.reply)) (run 0xF065 ((oneReg 0 9).setI 0x1000)) =
    some (9, .err .addressOutOfRange) := by decide

/-! ## Display (T-D) -/

/-- T-D-6: both wraps of a row. -/
theorem test_drw_wraps_columns : see (fun t => (onIn 31 t, t.reg 0xF)) (run 0xD011 (spriteAt [0xC3] 0 62 1 31)) =
    some ([4, 5, 62, 63], 0) := by decide

/-- T-D-7: the second row wraps to row 0. -/
theorem test_drw_wraps_rows : see (onIn 0) (run 0xD012 (spriteAt [0xFF, 0xFF] 0 0 1 31)) =
    some [0, 1, 2, 3, 4, 5, 6, 7] := by decide

/-- T-D-11: partial collision. -/
theorem test_drw_collides : see (fun t => (onIn 0 t, t.reg 0xF))
    (run 0xD011 { spriteAt [0xF0] 0 0 1 0 with fb := (Frame.blank.flip 0 0).flip 1 0 }) = some ([2, 3], 1) := by decide

/-- T-D-13: the old `VF` is the column (D8). -/
theorem test_drw_column_from_flag : see (fun t => (onIn 2 t, t.reg 0xF)) (run 0xDF11 (spriteAt [0x80] 0xF 3 1 2)) =
    some ([3], 0) := by decide

/-- T-D-8: `N = 0` reads no memory, even with `I` beyond it (D31). -/
theorem test_drw_no_rows : see (fun t => (t.reg 0xF, t.reply)) (run 0xD010 ((oneReg 0xF 1).setI 0x2000)) =
    some (0, .ok) := by decide

/-- T-D-1. -/
theorem test_cls : see (onIn 3) (run 0x00E0 { State.reset with fb := Frame.blank.flip 7 3 }) = some [] := by decide

/-! ## Keypad and timers (T-K) -/

/-- T-K-2, 5: only the low nibble counts (D11). -/
theorem test_skp : see State.pc (run 0xE29E (oneReg 2 5)) = some 0x202 ∧
    see State.pc (run 0xE29E ((pressed [5]).setReg 2 0x15)) = some 0x204 := by decide

/-- T-K-3, 4. -/
theorem test_sknp : see State.pc (run 0xE2A1 (oneReg 2 5)) = some 0x204 ∧
    see State.pc (run 0xE2A1 ((pressed [5]).setReg 2 5)) = some 0x202 := by decide

/-- T-K-6. -/
theorem test_ldVxK_suspends : see (fun t => (t.engine, resultOf 3 t)) (run 0xF30A (oneReg 3 0xEE)) =
    some (.awaitingKey, 0xEE, 0, 0x202) := by decide

/-- T-K-8, resumed from the wait (R83, D13, D15). -/
theorem test_ldVxK_resumes : see (fun t => (t.engine, resultOf 3 t)) (step (waiting (pressed [9, 7]))) =
    some (.running, 7, 0, 0x200) := by decide

/-- T-K-11. -/
theorem test_ldVxDt : see (resultOf 5) (run 0xF507 (State.reset.setDt 0x3C)) = some (0x3C, 0, 0x202) := by decide

/-- T-K-12, 13. -/
theorem test_ldDtVx_ldStVx : see State.dt (run 0xF515 (oneReg 5 0x3C)) = some 0x3C ∧
    see State.st (run 0xF518 (oneReg 5 8)) = some 8 := by decide

/-- T-K-14. -/
theorem test_tickTimers : see (fun t => (t.dt, t.st)) (step ((issuing .tickTimers).setDt 2)) = some (1, 0) := by decide

/-! ## Host commands and power-on (T-H) -/

/-- T-H-8: a shorter ROM leaves the tail of the first (D24). -/
theorem test_loadRom_shorter :
    see (fun t => ((List.range 4).map (fun k => t.mem.read (0x200 + k)), t.romLen))
      (step ((issuing (.loadRom [9, 9])).setMem (Memory.writeBytes [] 0x200 [1, 2, 3, 4]))) =
      some ([9, 9, 3, 4], 2) := by decide

/-- T-H-5. -/
theorem test_setKeypress_out_of_range :
    see (fun t => (t.reply, t.key)) (step (issuing (.setKeypress 16 true))) =
      some (.err .invalidArgument, State.reset.key) := by decide

/-- T-H-7, in part. -/
theorem test_reset_command :
    see (fun t => (controlOf t, t.engine, t.opcode, t.keyDown 4, t.mem.read 0x300))
      (step ((waiting ((pressed [4]).setPc 0x2A0)).setMem [(0x300, 0x77)] |>.setPending [.reset])) =
      some ((.ok, 0x200, 0), .running, 0, true, 0x77) := by decide

/-- T-H-9. -/
theorem test_power_on_memory :
    [0x050, 0x09F, 0x04F, 0x0A0, 0x200].map (fun a => State.reset.mem.read a) = [0xF0, 0x80, 0, 0, 0] := by decide

/-- R42 with G2: the last byte of each glyph `8`, `A`, `D`. -/
theorem test_font_glyphs : [0x07C, 0x086, 0x095].map (fun a => State.reset.mem.read a) = [0xF0, 0x90, 0xE0] := by decide

/-- R179: index 5 is `(5, 0)` (program P4), index 67 is `(3, 1)`. -/
theorem test_framebuffer_export :
    let s : State := { State.reset with fb := (Frame.blank.flip 5 0).flip 3 1 }
    ((hostFramebuffer s)[5]?, (hostFramebuffer s)[6]?, (hostFramebuffer s)[67]?) =
      (some true, some false, some true) := by decide

/-- R181: a listing line of power-on memory. -/
theorem test_disassemble : disassemble (State.reset.setMem [(0x200, 0x12)]) 0x202 =
    [⟨0x200, "JP addr", 0x1200⟩] := by decide

/-! ## Witnesses: for every obligation with hypotheses, states that meet them, clause by clause -/

/-- Power-on with a word at `PC`. -/
def holding (w : Nat) (s : State) : State := s.withFetchWord 16 w

theorem test_witness_DecodeOfEncodeIsTheInstruction :
    (Instr.drw 0xF 0xF 0xF).wellFormed = true ∧ (Instr.nop 0xFFFF).wellFormed = true := by decide

/-- The first word, and the last two bytes of memory. -/
theorem test_witness_StepRunsTheDecodedInstruction :
    (let s := holding 0xD125 State.reset
     nextCommand s = .clock ∧ s.engine = .running ∧ s.pc.toNat + 1 < 4096 ∧
       (decode [s.mem.read s.pc.toNat, s.mem.read (s.pc.toNat + 1)]).toOption = some (.drw 1 2 5, [])) ∧
    (let s := holding 0x60AA (State.reset.setPc 0xFFE)
     nextCommand s = .clock ∧ s.engine = .running ∧ s.pc.toNat + 1 < 4096 ∧
       (decode [s.mem.read s.pc.toNat, s.mem.read (s.pc.toNat + 1)]).toOption = some (.ldImm 0 0xAA, [])) := by
  decide

theorem test_witness_FetchBeyondMemoryChangesNothing :
    (let s := State.reset.setPc 0xFFF
     nextCommand s = .clock ∧ s.engine = .running ∧ 4096 ≤ s.pc.toNat + 1) ∧
    (let s := (issuing .fetch).setPc 0x1000
     nextCommand s = .fetch ∧ s.engine = .running ∧ 4096 ≤ s.pc.toNat + 1) := by decide

theorem test_witness_KeyWaitDispatchesTheHeldWord :
    nextCommand (waiting State.reset) = .clock ∧ (waiting State.reset).engine = .awaitingKey := by decide

theorem test_witness_FetchCommandLoadsWithoutExecuting :
    (let s := (issuing .fetch).setPc 0xFFE
     nextCommand s = .fetch ∧ s.engine = .running ∧ s.pc.toNat + 1 < 4096) ∧
    (nextCommand (waiting (issuing .fetch)) = .fetch ∧ (waiting (issuing .fetch)).engine = .awaitingKey) := by decide

/-- A state per clause: no word to execute, another instruction, a wait that starts, one that goes on, one
that a key ends. -/
theorem test_witness_EngineFollowsTheTransitionTable :
    (let s := State.reset.setPc 0x1000
     HoldsKeyWait s ∧ nextCommand s = .clock ∧ s.engine = .running ∧ executed s = none) ∧
    (HoldsKeyWait State.reset ∧ nextCommand State.reset = .clock ∧ State.reset.engine = .running ∧
      Executes State.reset (fun i => ∀ x, i ≠ .ldVxK x)) ∧
    (let s := holding 0xF30A State.reset
     HoldsKeyWait s ∧ nextCommand s = .clock ∧ executed s = some (.ldVxK 3) ∧ ∀ k, s.keyDown k = false) ∧
    (let s := holding 0xF30A (pressed [9, 7])
     HoldsKeyWait s ∧ nextCommand s = .clock ∧ executed s = some (.ldVxK 3) ∧ s.keyDown 7 = true ∧
       ∀ j : Nibble, j.toNat < (7 : Nibble).toNat → s.keyDown j = false) ∧
    (let s := waiting State.reset
     HoldsKeyWait s ∧ nextCommand s = .clock ∧ executed s = some (.ldVxK 3) ∧ s.engine = .awaitingKey ∧
       ∀ k, s.keyDown k = false) ∧
    (let s := waiting (pressed [0])
     HoldsKeyWait s ∧ nextCommand s = .clock ∧ executed s = some (.ldVxK 3) ∧ s.engine = .awaitingKey ∧
       s.keyDown 0 = true ∧ ∀ j : Nibble, j.toNat < (0 : Nibble).toNat → s.keyDown j = false) := by
  unfold HoldsKeyWait
  refine ⟨by decide, ⟨by decide, by decide, by decide, .nop 0, by decide, by decide⟩, by decide, by decide, by decide,
    by decide⟩

theorem test_witness_PcAfterEveryInstruction :
    let s := holding 0x2300 (withStack 14 0 0)
    s.engine = .running ∧ executed s = some (.call 0x300) ∧ step s = .next (after (step s)) :=
  ⟨by decide, by decide, rfl⟩

theorem test_witness_FailedInstructionLeavesOnlyFetchEffects :
    let s := holding 0x2300 (withStack 15 0 0)
    s.engine = .running ∧ executed s ≠ none ∧ step s = .next (after (step s)) ∧
      (after (step s)).reply = .err .stackOverflow :=
  ⟨by decide, by decide, rfl, by decide⟩

/-- A state per failure kind. -/
theorem test_witness_EachFailureComesFromItsRaisers :
    (let s := holding 0x2300 (withStack 15 0 0)
     HoldsKeyWait s ∧ see State.reply (step s) = some (.err .stackOverflow)) ∧
    (let s := holding 0x00EE State.reset
     HoldsKeyWait s ∧ see State.reply (step s) = some (.err .stackUnderflow)) ∧
    (let s := holding 0xF033 (State.reset.setI 0xFFE)
     HoldsKeyWait s ∧ see State.reply (step s) = some (.err .addressOutOfRange)) ∧
    (let s := issuing (.setKeypress 16 true)
     HoldsKeyWait s ∧ see State.reply (step s) = some (.err .invalidArgument)) := by
  unfold HoldsKeyWait
  decide

theorem step_issuing_too_large {bytes : List Byte} (h : 3584 < bytes.length) :
    HoldsKeyWait (issuing (.loadRom bytes)) ∧
      step (issuing (.loadRom bytes)) = .next ((issuing (.loadRom bytes)).issued.fail .capacityExceeded) :=
  ⟨fun h => absurd h (show Engine.running ≠ .awaitingKey by decide), if_pos h⟩

theorem test_witness_EachFailureComesFromItsRaisers_capacity :
    ∃ bytes, HoldsKeyWait (issuing (.loadRom bytes)) ∧
      step (issuing (.loadRom bytes)) = .next ((issuing (.loadRom bytes)).issued.fail .capacityExceeded) :=
  ⟨List.replicate 3585 0, step_issuing_too_large (by rw [List.length_replicate]; decide)⟩

/-- A failure recorded before, a first failure, a step that succeeds. -/
theorem test_witness_FailureRecordIsNeverCleared :
    (let s := holding 0x00EE (State.reset.fail .invalidArgument)
     s.failed = some .invalidArgument ∧ see State.failed (step s) = some (some .invalidArgument)) ∧
    (let s := holding 0x00EE State.reset
     s.failed = none ∧ see State.reply (step s) = some (.err .stackUnderflow)) ∧
    see State.reply (step State.reset) = some .ok := by decide

/-- At power-on, and with a store to the last byte of memory about to run in a state with a listed byte. -/
theorem test_witness_EveryStepKeepsTheInvariant :
    let s := holding 0xF033 (State.reset.setI 0xFFD)
    Inv s ∧ step s = .next (after (step s)) := by
  refine ⟨⟨?_, ?_, ?_, ?_, ?_, ?_⟩, rfl⟩
  · unfold MemoryCanonical
    decide
  · unfold StackSound
    decide
  · unfold PcBounded
    decide
  · unfold HoldsKeyWait
    decide
  · unfold RomLenBounded
    decide
  · unfold FailureRecorded
    decide

theorem test_witness_LaunchMemoryIsRomOverPowerOnImage :
    Launch [0x22, 0x00] [.clock]
      { State.reset with mem := Memory.writeBytes [] 0x200 [0x22, 0x00], romLen := 2, pending := [.clock] } :=
  ⟨by decide, rfl⟩

theorem test_witness_TickTimersCountsBothDownToZero : nextCommand (issuing .tickTimers) = .tickTimers := by decide

/-- Both ends of the range, and one beyond either end. -/
theorem test_witness_SetKeypressWritesOneFlagOrFails :
    (nextCommand (issuing (.setKeypress 0 true)) = .setKeypress 0 true ∧ (0 : Int) = ((0 : Nibble).toNat : Int)) ∧
    (nextCommand (issuing (.setKeypress 15 false)) = .setKeypress 15 false ∧
      (15 : Int) = ((0xF : Nibble).toNat : Int)) ∧
    (nextCommand (issuing (.setKeypress (-1) true)) = .setKeypress (-1) true ∧ (-1 : Int) < 0) ∧
    (nextCommand (issuing (.setKeypress 16 true)) = .setKeypress 16 true ∧ (15 : Int) < 16) := by decide

theorem test_witness_LoadRomTooLargeFailsAtomically :
    nextCommand (issuing (.loadRom (List.replicate 3585 0))) = .loadRom (List.replicate 3585 0) ∧
      4096 - 0x200 < (List.replicate 3585 (0 : Byte)).length :=
  ⟨nextCommand_issuing _, by rw [List.length_replicate]; decide⟩

/-- A ROM of the largest size, and an empty one. -/
theorem test_witness_LoadRomWritesExactlyItsBytes :
    (MemoryCanonical (issuing (.loadRom (List.replicate 3584 1))) ∧
      nextCommand (issuing (.loadRom (List.replicate 3584 1))) = .loadRom (List.replicate 3584 1) ∧
      (List.replicate 3584 (1 : Byte)).length ≤ 3584) ∧
    (MemoryCanonical (issuing (.loadRom [])) ∧ nextCommand (issuing (.loadRom [])) = .loadRom []) := by
  refine ⟨⟨?_, nextCommand_issuing _, by rw [List.length_replicate]⟩, ?_, rfl⟩
  · exact ⟨List.Pairwise.nil, fun c h => absurd h (by intro h; cases h)⟩
  · exact ⟨List.Pairwise.nil, fun c h => absurd h (by intro h; cases h)⟩

theorem test_witness_ResetRestoresRegistersAndKeepsMemory : nextCommand (issuing .reset) = .reset := by decide

/-- A step that changes `I`, one that changes the framebuffer, one that changes the engine. -/
theorem test_witness_IndexFramebufferAndEngineHaveFewWriters :
    (let s := holding 0xA2F0 State.reset
     nextCommand s ≠ .reset ∧ step s = .next (after (step s)) ∧ (after (step s)).i ≠ s.i) ∧
    (let s := holding 0xD011 (spriteAt [0x80] 0 0 1 0)
     nextCommand s ≠ .reset ∧ step s = .next (after (step s)) ∧
       (after (step s)).fb.pixel 0 0 ≠ s.fb.pixel 0 0) ∧
    (let s := holding 0xF30A State.reset
     nextCommand s ≠ .reset ∧ step s = .next (after (step s)) ∧ (after (step s)).engine ≠ s.engine) :=
  ⟨⟨by decide, rfl, by decide⟩, ⟨by decide, rfl, by decide⟩, by decide, rfl, by decide⟩

/-- A `CALL` into entry 14, the last it may write, changes `SP` and that entry. -/
theorem test_witness_OnlyCallAndRetMoveTheStack :
    let s := holding 0x2300 (withStack 14 0 0)
    StackSound s ∧ step s = .next (after (step s)) ∧ (after (step s)).sp ≠ s.sp ∧
      (after (step s)).stack[14] ≠ s.stack[14] := by
  refine ⟨?_, rfl, by decide, by decide⟩
  unfold StackSound
  decide

theorem test_witness_OnlyTimerWritesChangeTheTimers :
    let s := holding 0xF515 (oneReg 5 9)
    let u := holding 0xF518 (oneReg 5 9)
    (step s = .next (after (step s)) ∧ (after (step s)).dt ≠ s.dt) ∧
      (step u = .next (after (step u)) ∧ (after (step u)).st ≠ u.st) :=
  ⟨⟨rfl, by decide⟩, rfl, by decide⟩

theorem test_witness_OnlyTheHostWritesKeypadAndRomLength :
    let s := issuing (.setKeypress 15 true)
    let u := issuing (.loadRom [1])
    (step s = .next (after (step s)) ∧ (after (step s)).key ≠ s.key) ∧
      (step u = .next (after (step u)) ∧ (after (step u)).romLen ≠ u.romLen) :=
  ⟨⟨rfl, by decide⟩, rfl, by decide⟩

theorem test_witness_RegistersChangeOnlyAsDestinationOrFlag :
    let s := holding 0x8014 (twoRegs 0 0xFF 1 1)
    step s = .next (after (step s)) ∧ (after (step s)).reg 0 ≠ s.reg 0 ∧ (after (step s)).reg 0xF ≠ s.reg 0xF :=
  ⟨rfl, by decide, by decide⟩

/-- A form that stores, one that does not, and a step that changes memory. -/
theorem test_witness_MemoryChangesOnlyWhereStored :
    let s := (oneReg 0 7).setI 0x300
    MemoryCanonical s ∧ exec (.ldMemVx 0) s = .next (after (exec (.ldMemVx 0) s)) ∧
      storeSpan s (.ldMemVx 0) = some (0x300, 1) ∧ exec (.ldF 0) s = .next (after (exec (.ldF 0) s)) ∧
      storeSpan s (.ldF 0) = none ∧ see State.mem (step (holding 0xF055 s)) ≠ some (holding 0xF055 s).mem := by
  refine ⟨?_, rfl, by decide, rfl, by decide, by decide⟩
  unfold MemoryCanonical
  decide

/-- The store ends at the last byte of memory. -/
theorem test_witness_StoredBytesAreFetchedNext :
    let s := State.reset.setI 0xFFE
    MemoryCanonical s ∧ 1 ≤ (1 : Nibble).toNat ∧ s.i.toNat + (1 : Nibble).toNat < 4096 := by
  refine ⟨?_, by decide, by decide⟩
  unfold MemoryCanonical
  decide

theorem test_witness_CallPushesReturnAddressAndJumps : (withStack 14 0 0).sp.toNat < 15 := by decide

theorem test_witness_ReturnPopsTheReturnAddress :
    ((withStack 1 0 0x206).sp ≠ 0 ∧ (withStack 1 0 0x206).sp.toNat ≤ 15) ∧
    ((withStack 15 14 0x456).sp ≠ 0 ∧ (withStack 15 14 0x456).sp.toNat ≤ 15) := by decide

theorem test_witness_StackLimitsFailWithNothingChanged : (withStack 15 0 0).sp = 15 ∧ State.reset.sp = 0 := by decide

theorem test_witness_CallThenReturnRestoresPcAndSp :
    let s := withStack 14 0 0
    let t := after (exec (.call 0x300) s)
    s.sp.toNat < 15 ∧ exec (.call 0x300) s = .next t ∧ t.sp = t.sp ∧ t.stack = t.stack :=
  ⟨by decide, rfl, rfl, rfl⟩

/-- The clause about `VF` in the flag-setting instructions: any register but `VF`. -/
theorem test_witness_flag_clauses : (0xE : Nibble) ≠ 0xF := by decide

theorem test_witness_StoreDecimalDigits :
    MemoryCanonical (State.reset.setI 0xFFD) ∧ (State.reset.setI 0xFFD).i.toNat + 2 < 4096 := by
  refine ⟨?_, by decide⟩
  unfold MemoryCanonical
  decide

theorem test_witness_StoreRegistersUpToVx :
    MemoryCanonical (State.reset.setI 0xFF0) ∧ (State.reset.setI 0xFF0).i.toNat + (0xF : Nibble).toNat < 4096 := by
  refine ⟨?_, by decide⟩
  unfold MemoryCanonical
  decide

theorem test_witness_LoadRegistersUpToVx :
    (State.reset.setI 0xFFF).i.toNat + (0 : Nibble).toNat < 4096 ∧
    (State.reset.setI 0xFF0).i.toNat + (0xF : Nibble).toNat < 4096 := by decide

theorem test_witness_BlockStoreThenLoadRestoresRegisters :
    let s := (twoRegs 0 1 1 5).setI 0xFFE
    let t := after (exec (.ldMemVx 1) s)
    MemoryCanonical s ∧ s.i.toNat + (1 : Nibble).toNat < 4096 ∧ exec (.ldMemVx 1) s = .next t ∧ t.mem = t.mem ∧
      t.i = s.i := by
  refine ⟨?_, by decide, rfl, rfl, by decide⟩
  unfold MemoryCanonical
  decide

/-- One byte too many for each of the four instructions. -/
theorem test_witness_AccessBeyondMemoryFailsPrecisely :
    4096 ≤ (State.reset.setI 0xFFE).i.toNat + 2 ∧ 4096 ≤ (State.reset.setI 0xFF1).i.toNat + (0xF : Nibble).toNat ∧
    4096 ≤ (State.reset.setI 0x1000).i.toNat + (0 : Nibble).toNat ∧
    (1 ≤ (2 : Nibble).toNat ∧ 4096 ≤ (State.reset.setI 0xFFF).i.toNat + (2 : Nibble).toNat - 1) := by decide

/-- The last row in the last byte of memory, and no row with `I` beyond memory. -/
theorem test_witness_DrawInvertsExactlyTheSpritePixels :
    ((State.reset.setI 0xFF1).i.toNat + (0xF : Nibble).toNat - 1 < 4096) ∧ ((0 : Nibble) = 0) := by decide

theorem test_witness_DrawingTwiceRestoresTheFramebuffer :
    let s := spriteAt [0xC3] 0 62 1 31
    s.i.toNat + (1 : Nibble).toNat - 1 < 4096 ∧ (0 : Nibble) ≠ 0xF ∧ (1 : Nibble) ≠ 0xF ∧
      exec (.drw 0 1 1) s = .next (after (exec (.drw 0 1 1) s)) :=
  ⟨by decide, by decide, by decide, rfl⟩

theorem test_witness_SkipsOnKey : (5 : Nibble).toNat = ((oneReg 2 0x15).reg 2).toNat % 16 := by decide

/-- Keys 9 and 7 pressed, key 0 pressed, none pressed. -/
theorem test_witness_KeyWaitTakesLowestKeyOrSuspends :
    ((pressed [9, 7]).keyDown 7 = true ∧
      ∀ j : Nibble, j.toNat < (7 : Nibble).toNat → (pressed [9, 7]).keyDown j = false) ∧
    (pressed [0]).keyDown 0 = true ∧ (∀ k, State.reset.keyDown k = false) := by decide

/-! ## What the host asks: the row's word is decoded, and run as the first instruction after reset -/

/-- One word of each row of spec/opcode_table.json, in its order: the step answers a next state, with the word in
`opcode`. -/
theorem test_first_step_runs_every_row :
    ([0x00E0, 0x00EE, 0x1000, 0x2000, 0x3000, 0x4000, 0x5000, 0x6000, 0x7000]
      ++ [0x8000, 0x8001, 0x8002, 0x8003, 0x8004, 0x8005, 0x8006, 0x8007, 0x800E]
      ++ [0x9000, 0xA000, 0xB000, 0xC000, 0xD000, 0xE09E, 0xE0A1]
      ++ [0xF007, 0xF00A, 0xF015, 0xF018, 0xF01E, 0xF029, 0xF033, 0xF055, 0xF065]
      ++ [0x0000]).all (fun w => see State.opcode (run w State.reset) == some (BitVec.ofNat 16 w)) = true := by
  decide

end Sys2Proof.Tests
end

section
/-! Proofs about control flow (spec/41_control_flow.md): NOP, the jump, and the skips that compare. -/

namespace Sys2Proof.Machine

/-! ## What each instruction answers -/

theorem exec_nop (w : Word) (s : State) : exec (.nop w) s = .next s := rfl

theorem exec_jp (nnn : Addr) (s : State) : exec (.jp nnn) s = .next (s.setPc (addrValue nnn)) := rfl

theorem exec_seImm (x : Nibble) (nn : Byte) (s : State) :
    exec (.seImm x nn) s = skipIf (s.reg x == nn) s := rfl

theorem exec_sneImm (x : Nibble) (nn : Byte) (s : State) :
    exec (.sneImm x nn) s = skipIf (s.reg x != nn) s := rfl

/-! ## Skips that compare two bytes -/

theorem skipIf_beq (a b : Byte) (s : State) :
    skipIf (a == b) s = .next { s with pc := if a = b then s.pc + 2 else s.pc } := by
  simp only [skipIf_eq, beq_iff_eq]

theorem skipIf_bne (a b : Byte) (s : State) :
    skipIf (a != b) s = .next { s with pc := if a = b then s.pc else s.pc + 2 } := by
  simp only [skipIf_eq, bne_iff_ne, ite_not]

/-! ## The obligations -/

/-- Settles O35: NOP answers the state it is given, and the only update of the jump is `setPc`. -/
theorem nopChangesNothingAndJumpSetsPc : Obligations.NopChangesNothingAndJumpSetsPc := by
  intro w nnn s
  exact ⟨exec_nop w s, s.setPc (addrValue nnn), exec_jp nnn s, toNat_addrValue nnn, rfl⟩

/-- Settles O41: both instructions are `skipIf` of a comparison of `Vx` with the immediate. -/
theorem skipsOnImmediate : Obligations.SkipsOnImmediate := by
  intro x nn s
  exact ⟨(exec_seImm x nn s).trans (skipIf_beq (s.reg x) nn s),
    (exec_sneImm x nn s).trans (skipIf_bne (s.reg x) nn s)⟩

end Sys2Proof.Machine
end

section
/-! Proofs about arithmetic and logic (spec/42_alu.md): the immediate loads, the immediate add and the copy. -/

namespace Sys2Proof.Machine

/-! ## What each instruction answers -/

theorem exec_ldImm (x : Nibble) (nn : Byte) (s : State) : exec (.ldImm x nn) s = .next (s.setReg x nn) := rfl

theorem exec_addImm (x : Nibble) (nn : Byte) (s : State) :
    exec (.addImm x nn) s = .next (s.setReg x (s.reg x + nn)) := rfl

theorem exec_ldReg (x y : Nibble) (s : State) : exec (.ldReg x y) s = .next (s.setReg x (s.reg y)) := rfl

theorem exec_ldI (nnn : Addr) (s : State) : exec (.ldI nnn) s = .next (s.setI (addrValue nnn)) := rfl

/-! ## The frame of a register write -/

theorem changesReg_setReg (x : Nibble) (b : Byte) (s : State) : Claim.ChangesReg x s (s.setReg x b) :=
  ⟨fun _ hr => State.reg_setReg_ne s b hr, rfl⟩

/-- An instruction that answers one register write is known by the value it writes. -/
theorem next_setReg_spec {i : Instr} {s : State} {x : Nibble} {b : Byte} (h : exec i s = .next (s.setReg x b)) :
    ∃ t, exec i s = .next t ∧ t.reg x = b ∧ Claim.ChangesReg x s t :=
  ⟨s.setReg x b, h, State.reg_setReg_same s x b, changesReg_setReg x b s⟩

/-! ## The obligation -/

/-- Settles O43: the first three instructions write one register, and the only update of the fourth is `setI`. -/
theorem immediateLoadsAddAndCopy : Obligations.ImmediateLoadsAddAndCopy := by
  intro x y nn nnn s
  refine ⟨next_setReg_spec (exec_ldImm x nn s), ?_, next_setReg_spec (exec_ldReg x y s),
    s.setI (addrValue nnn), exec_ldI nnn s, toNat_addrValue nnn, rfl⟩
  obtain ⟨t, ht, hval, hframe⟩ := next_setReg_spec (exec_addImm x nn s)
  exact ⟨t, ht, hval ▸ BitVec.toNat_add (s.reg x) nn, hframe⟩

end Sys2Proof.Machine
end

section
/-! Proofs about the display (spec/44_display.md): the clear. -/

namespace Sys2Proof.Machine

theorem exec_cls (a : Nibble) (s : State) : exec (.cls a) s = .next (s.setFb Frame.blank) := rfl

theorem getElem_blank {y x : Nat} (hy : y < 32) (hx : x < 64) : Frame.blank[y][x] = false := by
  simp only [Frame.blank, Vector.getElem_replicate]

/-- Settles O55: the only update of the clear is `setFb`, with the blank framebuffer. -/
theorem clearTurnsEveryPixelOff : Obligations.ClearTurnsEveryPixelOff := by
  intro a s
  exact ⟨s.setFb Frame.blank, exec_cls a s, fun _ _ hy hx => getElem_blank hy hx, rfl⟩

end Sys2Proof.Machine
end

section
/-! Proofs about the timer instructions (spec/45_keypad_timers.md): reading the delay timer, setting either timer. -/

namespace Sys2Proof.Machine

/-! ## What each instruction answers -/

theorem exec_ldVxDt (x : Nibble) (s : State) : exec (.ldVxDt x) s = .next (s.setReg x s.dt) := rfl

theorem exec_ldDtVx (x : Nibble) (s : State) : exec (.ldDtVx x) s = .next (s.setDt (s.reg x)) := rfl

theorem exec_ldStVx (x : Nibble) (s : State) : exec (.ldStVx x) s = .next (s.setSt (s.reg x)) := rfl

/-! ## The obligation -/

/-- Settles O60: the read is one register write of the delay timer's value, and the only update of the other two is
`setDt` and `setSt`, with the value of `Vx`. -/
theorem timerInstructionsMoveTheirRegister : Obligations.TimerInstructionsMoveTheirRegister := by
  intro x s
  exact ⟨next_setReg_spec (exec_ldVxDt x s), exec_ldDtVx x s, exec_ldStVx x s⟩

end Sys2Proof.Machine
end

section
/-! Proofs about the host operations (spec/46_host_operations.md): the framebuffer accessor and the timer tick. -/

namespace Sys2Proof.Machine

/-! ## The framebuffer accessor (R179) -/

/-- The export is the library's row-major flattening, so what the library says of `Vector.flatten` holds of it. -/
theorem hostFramebuffer_eq_flatten (s : State) : hostFramebuffer s = s.fb.flatten.toList := by
  simp [hostFramebuffer, Vector.flatten, Vector.toList, List.flatMap_def, Function.comp_def]

theorem length_hostFramebuffer (s : State) : (hostFramebuffer s).length = 2048 := by
  rw [hostFramebuffer_eq_flatten, Vector.length_toList]

theorem getElem?_hostFramebuffer (s : State) {i : Nat} (hi : i < 32 * 64) :
    (hostFramebuffer s)[i]? = some (s.fb[i / 64]'(by omega))[i % 64] := by
  rw [hostFramebuffer_eq_flatten, Vector.getElem?_toList, Vector.getElem?_eq_getElem hi, Vector.getElem_flatten]

/-- Settles O27: element `i` of the export is in row `i / 64` and column `i % 64`, which for `i = y * 64 + x` are
`y` and `x`. -/
theorem framebufferExportIsRowMajor : Obligations.FramebufferExportIsRowMajor := by
  intro s
  refine ⟨length_hostFramebuffer s, fun y x hy hx => ?_⟩
  have hi : y * 64 + x < 32 * 64 := by omega
  have hrow : (y * 64 + x) / 64 = y := by omega
  have hcol : (y * 64 + x) % 64 = x := by omega
  simp only [getElem?_hostFramebuffer s hi, hrow, hcol]

/-! ## The timer tick (R174) -/

theorem step_tickTimers {s : State} (h : nextCommand s = .tickTimers) :
    step s = .next { s with
      dt := countDown s.dt
      st := countDown s.st
      reply := .ok
      pending := s.pending.tail } :=
  step_of_command h

/-- Settles O22: the step writes `countDown` of each timer, and beside them only the reply and the command list. -/
theorem tickTimersCountsBothDownToZero : Obligations.TickTimersCountsBothDownToZero := by
  intro s h
  exact ⟨_, step_tickTimers h, toNat_countDown s.dt, toNat_countDown s.st, rfl⟩

end Sys2Proof.Machine
end

section
/-! Proofs about power-on (spec/70_reset_and_hazards.md): what each part of `State.reset` reads as. -/

namespace Sys2Proof.Machine

/-! ## The power-on image (R220) -/

theorem length_fontTable : fontTable.length = 80 := by decide

theorem powerOnByte_fontBase_add (k : Nat) : powerOnByte (0x050 + k) = fontTable.getD k 0 := by
  have hle : Config.fontBase ≤ 0x050 + k := Nat.le_add_right 0x050 k
  rw [powerOnByte, if_pos hle, Config.fontBase_eq, Nat.add_sub_cancel_left]

theorem powerOnByte_outside_font {a : Nat} (h : a < 0x050 ∨ 0x0A0 ≤ a) : powerOnByte a = 0 := by
  obtain hbelow | habove := h
  · exact if_neg (Nat.not_le.mpr hbelow)
  · obtain ⟨k, rfl⟩ := Nat.exists_eq_add_of_le (show 0x050 ≤ a by omega)
    have hk : fontTable.length ≤ k := by rw [length_fontTable]; omega
    rw [powerOnByte_fontBase_add, List.getD_eq_default _ _ hk]

theorem read_reset (a : Nat) : State.reset.mem.read a = powerOnByte a := rfl

/-! ## Registers, stack and keypad -/

theorem reg_reset (r : Nibble) : State.reset.reg r = 0 := Vector.getElem_replicate r.isLt

theorem getElem_stack_reset {k : Nat} (hk : k < 16) : State.reset.stack[k] = 0 := Vector.getElem_replicate hk

theorem keyDown_reset (k : Nibble) : State.reset.keyDown k = false := Vector.getElem_replicate k.isLt

/-! ## The obligation -/

/-- Settles O20: memory reads as the power-on image, the font and zero outside it; the vectors read zero, up and off at
every index; the opcode's fields are slices of zero, and the other registers stand in `State.reset` as they are. -/
theorem powerOnZeroesAllButFontAndPc : Obligations.PowerOnZeroesAllButFontAndPc := by
  have hfont (k : Nat) (_ : k < 80) : State.reset.mem.read (0x050 + k) = fontTable.getD k 0 :=
    (read_reset _).trans (powerOnByte_fontBase_add k)
  have hzero (a : Nat) (_ : a < 4096) (ha : a < 0x050 ∨ 0x0A0 ≤ a) : State.reset.mem.read a = 0 :=
    (read_reset a).trans (powerOnByte_outside_font ha)
  exact ⟨length_fontTable, hfont, hzero, reg_reset, rfl, rfl, rfl, fun _ => getElem_stack_reset,
    rfl, rfl, rfl, rfl, rfl, rfl, rfl, keyDown_reset, fun _ _ => getElem_blank, rfl, rfl, rfl⟩

end Sys2Proof.Machine
end

section
/-! Proofs about the encoding (spec/30_encoding.md): the two directions of the round trip, the opcode table and the
words that select `NOP`. -/

namespace Sys2Proof

/-! ## Decoding an encoded instruction (R60, R65) -/

theorem decodeWord_encode : ∀ i : Instr, Laws.RoundTrip.Statement i
  | .cls x => Laws.RoundTrip.cls x
  | .ret x => Laws.RoundTrip.ret x
  | .jp nnn => Laws.RoundTrip.jp nnn
  | .call nnn => Laws.RoundTrip.call nnn
  | .seImm x nn => Laws.RoundTrip.seImm x nn
  | .sneImm x nn => Laws.RoundTrip.sneImm x nn
  | .seReg x y n => Laws.RoundTrip.seReg x y n
  | .ldImm x nn => Laws.RoundTrip.ldImm x nn
  | .addImm x nn => Laws.RoundTrip.addImm x nn
  | .ldReg x y => Laws.RoundTrip.ldReg x y
  | .orReg x y => Laws.RoundTrip.orReg x y
  | .andReg x y => Laws.RoundTrip.andReg x y
  | .xorReg x y => Laws.RoundTrip.xorReg x y
  | .addReg x y => Laws.RoundTrip.addReg x y
  | .subReg x y => Laws.RoundTrip.subReg x y
  | .shr x y => Laws.RoundTrip.shr x y
  | .subnReg x y => Laws.RoundTrip.subnReg x y
  | .shl x y => Laws.RoundTrip.shl x y
  | .sneReg x y n => Laws.RoundTrip.sneReg x y n
  | .ldI nnn => Laws.RoundTrip.ldI nnn
  | .jpV0 nnn => Laws.RoundTrip.jpV0 nnn
  | .rnd x nn => Laws.RoundTrip.rnd x nn
  | .drw x y n => Laws.RoundTrip.drw x y n
  | .skp x => Laws.RoundTrip.skp x
  | .sknp x => Laws.RoundTrip.sknp x
  | .ldVxDt x => Laws.RoundTrip.ldVxDt x
  | .ldVxK x => Laws.RoundTrip.ldVxK x
  | .ldDtVx x => Laws.RoundTrip.ldDtVx x
  | .ldStVx x => Laws.RoundTrip.ldStVx x
  | .addI x => Laws.RoundTrip.addI x
  | .ldF x => Laws.RoundTrip.ldF x
  | .ldB x => Laws.RoundTrip.ldB x
  | .ldMemVx x => Laws.RoundTrip.ldMemVx x
  | .ldVxMem x => Laws.RoundTrip.ldVxMem x
  | .nop w => Laws.RoundTrip.nop w

theorem decode_encodeBytes_append (i : Instr) (rest : List Byte) :
    decode (encodeBytes i ++ rest) = .ok (decodeWord (encode i), rest) := by
  rw [encodeBytes, List.cons_append, List.cons_append, List.nil_append, decode, wordOfBytes_highByte_lowByte]

/-- Settles O1: `decode` puts the two bytes together to the word they were cut from, and each form's word decodes to
the form. -/
theorem decodeOfEncodeIsTheInstruction : Obligations.DecodeOfEncodeIsTheInstruction := by
  intro i rest hwf
  rw [decode_encodeBytes_append, decodeWord_encode i hwf]

/-! ## Encoding a decoded word (R61, R68): a word is its family, its fields and its selector -/

section
variable {w : Word} {t : Nibble}

theorem wordOfByteView_eq {nn : Byte} (ht : fieldT w = t) (hnn : fieldNN w = nn) :
    wordOfByteView t (fieldX w) nn = w := by
  rw [← ht, ← hnn, wordOfByteView_fields]

theorem wordOfNibbles_eq {n : Nibble} (ht : fieldT w = t) (hn : fieldN w = n) :
    wordOfNibbles t (fieldX w) (fieldY w) n = w := by
  rw [← ht, ← hn, wordOfNibbles_fields]

theorem wordOfAddrView_eq (ht : fieldT w = t) : wordOfAddrView t (fieldNNN w) = w := by
  rw [← ht, wordOfAddrView_fields]

theorem encode_ite {c : Prop} [Decidable c] {i j : Instr} (hi : c → encode i = w) (hj : ¬ c → encode j = w) :
    encode (if c then i else j) = w := by
  split
  next h => exact hi h
  next h => exact hj h

theorem encode_decodeFamily0 (ht : fieldT w = 0x0) : encode (decodeFamily0 w) = w :=
  encode_ite (wordOfByteView_eq ht) fun _ => encode_ite (wordOfByteView_eq ht) fun _ => rfl

theorem encode_decodeFamily8 (ht : fieldT w = 0x8) : encode (decodeFamily8 w) = w :=
  encode_ite (wordOfNibbles_eq ht) fun _ => encode_ite (wordOfNibbles_eq ht) fun _ =>
  encode_ite (wordOfNibbles_eq ht) fun _ => encode_ite (wordOfNibbles_eq ht) fun _ =>
  encode_ite (wordOfNibbles_eq ht) fun _ => encode_ite (wordOfNibbles_eq ht) fun _ =>
  encode_ite (wordOfNibbles_eq ht) fun _ => encode_ite (wordOfNibbles_eq ht) fun _ =>
  encode_ite (wordOfNibbles_eq ht) fun _ => rfl

theorem encode_decodeFamilyE (ht : fieldT w = 0xE) : encode (decodeFamilyE w) = w :=
  encode_ite (wordOfByteView_eq ht) fun _ => encode_ite (wordOfByteView_eq ht) fun _ => rfl

theorem encode_decodeFamilyF (ht : fieldT w = 0xF) : encode (decodeFamilyF w) = w :=
  encode_ite (wordOfByteView_eq ht) fun _ => encode_ite (wordOfByteView_eq ht) fun _ =>
  encode_ite (wordOfByteView_eq ht) fun _ => encode_ite (wordOfByteView_eq ht) fun _ =>
  encode_ite (wordOfByteView_eq ht) fun _ => encode_ite (wordOfByteView_eq ht) fun _ =>
  encode_ite (wordOfByteView_eq ht) fun _ => encode_ite (wordOfByteView_eq ht) fun _ =>
  encode_ite (wordOfByteView_eq ht) fun _ => rfl

/-- The sixteenth family is the one left when the fifteen others are excluded. -/
theorem fieldT_eq_F (h0 : fieldT w ≠ 0x0) (h1 : fieldT w ≠ 0x1) (h2 : fieldT w ≠ 0x2) (h3 : fieldT w ≠ 0x3)
    (h4 : fieldT w ≠ 0x4) (h5 : fieldT w ≠ 0x5) (h6 : fieldT w ≠ 0x6) (h7 : fieldT w ≠ 0x7) (h8 : fieldT w ≠ 0x8)
    (h9 : fieldT w ≠ 0x9) (hA : fieldT w ≠ 0xA) (hB : fieldT w ≠ 0xB) (hC : fieldT w ≠ 0xC) (hD : fieldT w ≠ 0xD)
    (hE : fieldT w ≠ 0xE) : fieldT w = 0xF := by
  simpa only [h0, h1, h2, h3, h4, h5, h6, h7, h8, h9, hA, hB, hC, hD, hE, false_or] using nibble_cases (fieldT w)

theorem encode_decodeWord (w : Word) : encode (decodeWord w) = w :=
  encode_ite encode_decodeFamily0 fun h0 =>
  encode_ite wordOfAddrView_eq fun h1 =>
  encode_ite wordOfAddrView_eq fun h2 =>
  encode_ite (wordOfByteView_eq · rfl) fun h3 =>
  encode_ite (wordOfByteView_eq · rfl) fun h4 =>
  encode_ite (wordOfNibbles_eq · rfl) fun h5 =>
  encode_ite (wordOfByteView_eq · rfl) fun h6 =>
  encode_ite (wordOfByteView_eq · rfl) fun h7 =>
  encode_ite encode_decodeFamily8 fun h8 =>
  encode_ite (wordOfNibbles_eq · rfl) fun h9 =>
  encode_ite wordOfAddrView_eq fun hA =>
  encode_ite wordOfAddrView_eq fun hB =>
  encode_ite (wordOfByteView_eq · rfl) fun hC =>
  encode_ite (wordOfNibbles_eq · rfl) fun hD =>
  encode_ite encode_decodeFamilyE fun hE =>
  encode_decodeFamilyF (fieldT_eq_F h0 h1 h2 h3 h4 h5 h6 h7 h8 h9 hA hB hC hD hE)

end

/-- The word a decoded `NOP` carries is the word decoded, so it selects `NOP`. -/
theorem wellFormed_decodeWord (w : Word) : (decodeWord w).wellFormed = true := by
  cases h : decodeWord w with
  | nop v =>
    have hv : v = w := by rw [← encode_decodeWord w, h]; rfl
    exact hv ▸ isNopWord_of_decodeWord h
  | _ => rfl

/-- Settles O2: each family's decoder keeps the fields, and what it drops of them is the selector that the encoder
puts back; only a `NOP` can fail to be well-formed. -/
theorem encodeOfDecodeIsTheWord : Obligations.EncodeOfDecodeIsTheWord :=
  fun w => ⟨wellFormed_decodeWord w, encode_decodeWord w⟩

/-! ## The mask and match table (R65) -/

/-- On the bits that both masks keep, the values of two different rows differ. -/
theorem opcodeRows_apart :
    ∀ a ∈ opcodeRows, ∀ b ∈ opcodeRows, a.value &&& b.mask = b.value &&& a.mask → a = b := by
  decide

theorem OpcodeRow.matches_iff (r : OpcodeRow) (w : Word) : r.matches w = true ↔ w &&& r.mask = r.value :=
  beq_iff_eq

theorem opcodeRow_unique {w : Word} {a b : OpcodeRow} (ha : a ∈ opcodeRows) (hb : b ∈ opcodeRows)
    (hwa : a.matches w = true) (hwb : b.matches w = true) : a = b := by
  rw [OpcodeRow.matches_iff] at hwa hwb
  refine opcodeRows_apart a ha b hb ?_
  rw [← hwa, ← hwb, BitVec.and_assoc, BitVec.and_assoc, BitVec.and_comm a.mask]

theorem tableRow_of_matches {w : Word} {r : OpcodeRow} (hr : r ∈ opcodeRows) (hw : r.matches w = true) :
    tableRow w = r.row := by
  unfold tableRow
  split
  next a ha =>
    have hmatch : a.matches w = true := List.find?_some (p := fun r : OpcodeRow => r.matches w) ha
    rw [opcodeRow_unique (List.mem_of_find?_eq_some ha) hr hmatch hw]
  next hnone => exact absurd hw (List.find?_eq_none.1 hnone r hr)

theorem tableRow_of_isNopWord {w : Word} (h : isNopWord w = true) : tableRow w = 35 := by
  have hnone : opcodeRows.find? (fun r => r.matches w) = none := by
    simpa [isNopWord, List.find?_eq_none] using h
  rw [tableRow, hnone]

theorem tableRow_of_and_eq {w mask value : Word} {r : Nat} (hr : ⟨r, mask, value⟩ ∈ opcodeRows)
    (h : w &&& mask = value) : tableRow w = r :=
  tableRow_of_matches hr ((OpcodeRow.matches_iff _ _).2 h)

section
variable {r : Nat} {t : Nibble}

theorem tableRow_addrView (hr : ⟨r, 0xF000, wordOfNibbles t 0 0 0⟩ ∈ opcodeRows) (nnn : Addr) :
    tableRow (wordOfAddrView t nnn) = r :=
  tableRow_of_and_eq hr ((and_F000_eq_iff _ _).2 (by simp))

theorem tableRow_byteView (hr : ⟨r, 0xF000, wordOfNibbles t 0 0 0⟩ ∈ opcodeRows) (x : Nibble) (nn : Byte) :
    tableRow (wordOfByteView t x nn) = r :=
  tableRow_of_and_eq hr ((and_F000_eq_iff _ _).2 (by simp))

theorem tableRow_nibbles (hr : ⟨r, 0xF000, wordOfNibbles t 0 0 0⟩ ∈ opcodeRows) (x y n : Nibble) :
    tableRow (wordOfNibbles t x y n) = r :=
  tableRow_of_and_eq hr ((and_F000_eq_iff _ _).2 (by simp))

theorem tableRow_nibbles_selected {n : Nibble} (hr : ⟨r, 0xF00F, wordOfNibbles t 0 0 n⟩ ∈ opcodeRows)
    (x y : Nibble) :
    tableRow (wordOfNibbles t x y n) = r :=
  tableRow_of_and_eq hr ((and_F00F_eq_iff _ _).2 (by simp))

theorem tableRow_byteView_selected {nn : Byte} (hr : ⟨r, 0xF0FF, wordOfByteView t 0 nn⟩ ∈ opcodeRows) (x : Nibble) :
    tableRow (wordOfByteView t x nn) = r :=
  tableRow_of_and_eq hr ((and_F0FF_eq_iff _ _).2 (by simp))

end

theorem tableRow_encode : ∀ i : Instr, i.wellFormed = true → tableRow (encode i) = i.row
  | .cls x, _ => tableRow_byteView_selected (r := 1) (by decide) x
  | .ret x, _ => tableRow_byteView_selected (r := 2) (by decide) x
  | .jp nnn, _ => tableRow_addrView (r := 3) (by decide) nnn
  | .call nnn, _ => tableRow_addrView (r := 4) (by decide) nnn
  | .seImm x nn, _ => tableRow_byteView (r := 5) (by decide) x nn
  | .sneImm x nn, _ => tableRow_byteView (r := 6) (by decide) x nn
  | .seReg x y n, _ => tableRow_nibbles (r := 7) (by decide) x y n
  | .ldImm x nn, _ => tableRow_byteView (r := 8) (by decide) x nn
  | .addImm x nn, _ => tableRow_byteView (r := 9) (by decide) x nn
  | .ldReg x y, _ => tableRow_nibbles_selected (r := 10) (by decide) x y
  | .orReg x y, _ => tableRow_nibbles_selected (r := 11) (by decide) x y
  | .andReg x y, _ => tableRow_nibbles_selected (r := 12) (by decide) x y
  | .xorReg x y, _ => tableRow_nibbles_selected (r := 13) (by decide) x y
  | .addReg x y, _ => tableRow_nibbles_selected (r := 14) (by decide) x y
  | .subReg x y, _ => tableRow_nibbles_selected (r := 15) (by decide) x y
  | .shr x y, _ => tableRow_nibbles_selected (r := 16) (by decide) x y
  | .subnReg x y, _ => tableRow_nibbles_selected (r := 17) (by decide) x y
  | .shl x y, _ => tableRow_nibbles_selected (r := 18) (by decide) x y
  | .sneReg x y n, _ => tableRow_nibbles (r := 19) (by decide) x y n
  | .ldI nnn, _ => tableRow_addrView (r := 20) (by decide) nnn
  | .jpV0 nnn, _ => tableRow_addrView (r := 21) (by decide) nnn
  | .rnd x nn, _ => tableRow_byteView (r := 22) (by decide) x nn
  | .drw x y n, _ => tableRow_nibbles (r := 23) (by decide) x y n
  | .skp x, _ => tableRow_byteView_selected (r := 24) (by decide) x
  | .sknp x, _ => tableRow_byteView_selected (r := 25) (by decide) x
  | .ldVxDt x, _ => tableRow_byteView_selected (r := 26) (by decide) x
  | .ldVxK x, _ => tableRow_byteView_selected (r := 27) (by decide) x
  | .ldDtVx x, _ => tableRow_byteView_selected (r := 28) (by decide) x
  | .ldStVx x, _ => tableRow_byteView_selected (r := 29) (by decide) x
  | .addI x, _ => tableRow_byteView_selected (r := 30) (by decide) x
  | .ldF x, _ => tableRow_byteView_selected (r := 31) (by decide) x
  | .ldB x, _ => tableRow_byteView_selected (r := 32) (by decide) x
  | .ldMemVx x, _ => tableRow_byteView_selected (r := 33) (by decide) x
  | .ldVxMem x, _ => tableRow_byteView_selected (r := 34) (by decide) x
  | .nop _, h => tableRow_of_isNopWord h

/-- Settles O3: a word is the encoding of what it decodes to, and the encoding of each form matches the form's row; two
rows that one word matches agree on the bits both keep, and no two different rows do. -/
theorem dispatcherAgreesWithOpcodeTable : Obligations.DispatcherAgreesWithOpcodeTable := by
  refine ⟨fun w => ?_, fun w a b => opcodeRow_unique⟩
  rw [← tableRow_encode _ (wellFormed_decodeWord w), encode_decodeWord]

/-! ## The words that select `NOP` (R67) -/

/-- Settles O4: those that match no row, each comparison of a field read as one of numbers; in family `8` the nine
assigned selectors are the complement of the seven listed. -/
theorem nopWordsAreTheUnassignedSelectors : Obligations.NopWordsAreTheUnassignedSelectors := by
  intro w
  rw [decodeWord_eq_nop_iff, isNopWord_iff]
  simp only [ne_eq, ← BitVec.toNat_inj, toNat_fieldT, toNat_fieldN, toNat_fieldNN, BitVec.ofNat_eq_ofNat,
    BitVec.toNat_ofNat, Nat.reducePow, Nat.reduceMod, List.mem_cons, List.not_mem_nil, or_false, not_or]
  have hn : w.toNat % 16 < 16 := Nat.mod_lt _ (by decide)
  omega

/-! ## Sample words -/

/-- Settles O5: `decode` has one equation for no byte, one for a single byte and one for two or more. -/
theorem sampleWordsDecodeAsTheSpecLists : Obligations.SampleWordsDecodeAsTheSpecLists := by
  refine ⟨fun bs => ?_, by decide⟩
  match bs with
  | [] => simp [decode]
  | [_] => simp [decode]
  | _ :: _ :: _ => simp [decode]

end Sys2Proof
end

section
/-! What one step can do (spec/40_engine_cycle.md), said once over all commands and all instructions. The statements
about the engine cycle, about the invariant and about who writes what cite `step_transition`. -/

namespace Sys2Proof.Machine

open Claim

/-! ## The state in which an instruction runs (R82, R83) -/

/-- The state that the fetch phase hands to the handler: `Clock()` taken off the host's list, the reply `Ok`, and in
`Running` the word at `PC` loaded; nothing else of `s` has changed. -/
def State.entry (s : State) : State :=
  { s with
    opcode := if s.engine = .running then fetchWord s else s.opcode
    pc := if s.engine = .running then s.pc + 2 else s.pc
    reply := .ok
    pending := s.pending.tail }

theorem State.entry_running {s : State} (he : s.engine = .running) : s.entry = (s.issued.setReply .ok).fetched := by
  rw [State.entry, if_pos he, if_pos he]
  rfl

theorem State.entry_awaiting {s : State} (he : s.engine = .awaitingKey) : s.entry = s.issued.setReply .ok := by
  have hr : ¬ s.engine = .running := by rw [he]; decide
  rw [State.entry, if_neg hr, if_neg hr]
  rfl

section
variable (s : State)

@[simp] theorem State.entry_mem : s.entry.mem = s.mem := rfl
@[simp] theorem State.entry_v : s.entry.v = s.v := rfl
@[simp] theorem State.entry_i : s.entry.i = s.i := rfl
@[simp] theorem State.entry_sp : s.entry.sp = s.sp := rfl
@[simp] theorem State.entry_stack : s.entry.stack = s.stack := rfl
@[simp] theorem State.entry_engine : s.entry.engine = s.engine := rfl
@[simp] theorem State.entry_key : s.entry.key = s.key := rfl
@[simp] theorem State.entry_fb : s.entry.fb = s.fb := rfl
@[simp] theorem State.entry_dt : s.entry.dt = s.dt := rfl
@[simp] theorem State.entry_st : s.entry.st = s.st := rfl
@[simp] theorem State.entry_romLen : s.entry.romLen = s.romLen := rfl
@[simp] theorem State.entry_draws : s.entry.draws = s.draws := rfl
@[simp] theorem State.entry_failed : s.entry.failed = s.failed := rfl
@[simp] theorem State.entry_reply : s.entry.reply = .ok := rfl
@[simp] theorem State.entry_pending : s.entry.pending = s.pending.tail := rfl
@[simp] theorem State.entry_reg (x : Nibble) : s.entry.reg x = s.reg x := rfl
@[simp] theorem State.entry_stackAt (p : Byte) : s.entry.stackAt p = s.stackAt p := rfl
@[simp] theorem State.entry_keyDown (k : Nibble) : s.entry.keyDown k = s.keyDown k := rfl
@[simp] theorem State.entry_lowestKey : s.entry.lowestKey = s.lowestKey := rfl

end

theorem State.entry_opcode_running {s : State} (he : s.engine = .running) : s.entry.opcode = fetchWord s := by
  rw [State.entry_running he]; rfl

theorem State.entry_opcode_awaiting {s : State} (he : s.engine = .awaitingKey) : s.entry.opcode = s.opcode := by
  rw [State.entry_awaiting he]; rfl

theorem State.entry_pc_awaiting {s : State} (he : s.engine = .awaitingKey) : s.entry.pc = s.pc := by
  rw [State.entry_awaiting he]; rfl

theorem State.toNat_entry_pc_running {s : State} (he : s.engine = .running) (hp : s.pc.toNat + 1 < 4096) :
    s.entry.pc.toNat = s.pc.toNat + 2 := by
  rw [State.entry_running he]
  exact Nat.mod_eq_of_lt (show s.pc.toNat + 2 < 2 ^ 16 by omega)

/-! ## Which instruction a step executes -/

theorem executed_running {s : State} (hc : nextCommand s = .clock) (he : s.engine = .running)
    (hp : s.pc.toNat + 1 < 4096) : executed s = some (decodeWord (fetchWord s)) := by
  simp [executed, hc, he, hp, fetchWord, wordOfBytes]

theorem executed_awaiting {s : State} (hc : nextCommand s = .clock) (he : s.engine = .awaitingKey) :
    executed s = some (decodeWord s.opcode) := by
  simp [executed, hc, he]

theorem executed_beyond {s : State} (he : s.engine = .running) (hp : 4096 ≤ s.pc.toNat + 1) : executed s = none := by
  simp [executed, he, Nat.not_lt.2 hp]

theorem nextCommand_of_executed {s : State} {i : Instr} (h : executed s = some i) : nextCommand s = .clock := by
  by_contra hc
  simp [executed, hc] at h

theorem canFetch_of_executed {s : State} {i : Instr} (h : executed s = some i) (he : s.engine = .running) :
    s.pc.toNat + 1 < 4096 := by
  by_contra hp
  rw [executed_beyond he (Nat.not_lt.1 hp)] at h
  exact absurd h (by simp)

/-- In either engine state the instruction executed is the one that `opcode` holds when the handler runs. -/
theorem decodeWord_entry_opcode {s : State} {i : Instr} (h : executed s = some i) : decodeWord s.entry.opcode = i := by
  have hc := nextCommand_of_executed h
  cases he : s.engine with
  | running =>
    rw [executed_running hc he (canFetch_of_executed h he)] at h
    rw [State.entry_opcode_running he, Option.some.inj h]
  | awaitingKey =>
    rw [executed_awaiting hc he] at h
    rw [State.entry_opcode_awaiting he, Option.some.inj h]

/-- A wait that holds the invariant of R89 dispatches its `LD Vx, K`. -/
theorem executed_of_keyWait {s : State} (hw : HoldsKeyWait s) (hc : nextCommand s = .clock)
    (he : s.engine = .awaitingKey) : executed s = some (.ldVxK (fieldX s.opcode)) := by
  rw [executed_awaiting hc he, decodeWord_of_keyWait (hw he)]

theorem step_of_executed {s : State} {i : Instr} (h : executed s = some i) : step s = exec i s.entry := by
  have hc := nextCommand_of_executed h
  rw [step_of_command hc]
  cases he : s.engine with
  | running =>
    have hp := canFetch_of_executed h he
    rw [executed_running hc he hp] at h
    rw [State.entry_running he, ← Option.some.inj h]
    exact clock_running (s := s.issued) he hp
  | awaitingKey =>
    rw [executed_awaiting hc he] at h
    rw [State.entry_awaiting he, ← Option.some.inj h]
    exact clock_awaiting (s := s.issued) he

theorem step_of_fetch_beyond {s : State} (hc : nextCommand s = .clock ∨ nextCommand s = .fetch)
    (he : s.engine = .running) (hp : 4096 ≤ s.pc.toNat + 1) : step s = .next (s.issued.fail .addressOutOfRange) := by
  obtain hc | hc := hc
  · rw [step_of_command hc]
    exact clock_beyond (s := s.issued) he hp
  · rw [step_of_command hc, runCommand, fetchCommand, fetchPhase_beyond (s := s.issued.setReply .ok) he hp]
    rfl

theorem step_of_fetch {s : State} (hc : nextCommand s = .fetch) (hp : s.engine = .running → s.pc.toNat + 1 < 4096) :
    step s = .next s.entry := by
  rw [step_of_command hc, runCommand, fetchCommand]
  cases he : s.engine with
  | running => rw [fetchPhase_running (s := s.issued.setReply .ok) he (hp he), State.entry_running he]
  | awaitingKey => rw [fetchPhase_awaiting (s := s.issued.setReply .ok) he, State.entry_awaiting he]

/-! ## The other commands -/

theorem step_reset {s : State} (hc : nextCommand s = .reset) :
    step s = .next { State.reset with
      mem := s.mem
      key := s.key
      romLen := s.romLen
      draws := s.draws
      failed := s.failed
      pending := s.pending.tail } :=
  step_of_command hc

/-! ## Everything a step can do -/

/-- The next state `t` of `s`, by the host's command and, for `Clock()`, by what its fetch and its handler did. -/
inductive Transition (s : State) : State → Prop where
  | fails {i : Instr} {k : Failure} (hi : executed s = some i) (hk : failure i s.entry = some k) :
      Transition s (s.entry.fail k)
  | runs {i : Instr} {t : State} (hi : executed s = some i) (ht : exec i s.entry = .next t)
      (heff : Effect i s.entry t) : Transition s t
  | fetchFails (hc : nextCommand s = .clock ∨ nextCommand s = .fetch) (he : s.engine = .running)
      (hp : 4096 ≤ s.pc.toNat + 1) : Transition s (s.issued.fail .addressOutOfRange)
  | fetches (hc : nextCommand s = .fetch) (hp : s.engine = .running → s.pc.toNat + 1 < 4096) : Transition s s.entry
  | resets (hc : nextCommand s = .reset) :
      Transition s { State.reset with
        mem := s.mem
        key := s.key
        romLen := s.romLen
        draws := s.draws
        failed := s.failed
        pending := s.pending.tail }
  | ticks (hc : nextCommand s = .tickTimers) :
      Transition s { s with
        dt := countDown s.dt
        st := countDown s.st
        reply := .ok
        pending := s.pending.tail }
  | keyRefused {key : Int} {p : Bool} (hc : nextCommand s = .setKeypress key p) (hk : key < 0 ∨ 15 < key) :
      Transition s (s.issued.fail .invalidArgument)
  | keySet {key : Int} {p : Bool} (hc : nextCommand s = .setKeypress key p) :
      Transition s ((s.issued.setKey (BitVec.ofInt 4 key) p).setReply .ok)
  | romRefused {bytes : List Byte} (hc : nextCommand s = .loadRom bytes) (hn : 3584 < bytes.length) :
      Transition s (s.issued.fail .capacityExceeded)
  | romLoaded {bytes : List Byte} (hc : nextCommand s = .loadRom bytes) (hn : bytes.length ≤ 3584) :
      Transition s (((s.issued.setMem (s.mem.writeBytes 0x200 bytes)).setRomLen bytes.length).setReply .ok)

theorem exists_transition_of_executed {s : State} {i : Instr} (hi : executed s = some i) :
    ∃ t, step s = .next t ∧ Transition s t := by
  rw [step_of_executed hi]
  obtain ⟨k, hk, h⟩ | ⟨-, t, ht, heff⟩ := exec_cases i s.entry
  · exact ⟨_, h, .fails hi hk⟩
  · exact ⟨t, ht, .runs hi ht heff⟩

theorem step_transition (s : State) : ∃ t, step s = .next t ∧ Transition s t := by
  cases hc : nextCommand s with
  | clock =>
    cases he : s.engine with
    | running =>
      by_cases hp : s.pc.toNat + 1 < 4096
      · exact exists_transition_of_executed (executed_running hc he hp)
      · exact ⟨_, step_of_fetch_beyond (.inl hc) he (Nat.not_lt.1 hp), .fetchFails (.inl hc) he (Nat.not_lt.1 hp)⟩
    | awaitingKey => exact exists_transition_of_executed (executed_awaiting hc he)
  | fetch =>
    by_cases hp : s.engine = .running → s.pc.toNat + 1 < 4096
    · exact ⟨_, step_of_fetch hc hp, .fetches hc hp⟩
    · obtain ⟨he, hp⟩ := Classical.not_imp.1 hp
      exact ⟨_, step_of_fetch_beyond (.inr hc) he (Nat.not_lt.1 hp), .fetchFails (.inr hc) he (Nat.not_lt.1 hp)⟩
  | reset => exact ⟨_, step_reset hc, .resets hc⟩
  | tickTimers => exact ⟨_, step_tickTimers hc, .ticks hc⟩
  | setKeypress key p =>
    rw [step_of_command hc]
    obtain ⟨hk, h⟩ | ⟨-, h⟩ := setKeypress_cases key p s.issued
    · exact ⟨_, h, .keyRefused hc hk⟩
    · exact ⟨_, h, .keySet hc⟩
  | loadRom bytes =>
    rw [step_of_command hc]
    obtain ⟨hn, h⟩ | ⟨hn, h⟩ := loadRom_cases bytes s.issued
    · exact ⟨_, h, .romRefused hc hn⟩
    · exact ⟨_, h, .romLoaded hc hn⟩

theorem transition_of_step {s t : State} (h : step s = .next t) : Transition s t := by
  obtain ⟨u, hu, htr⟩ := step_transition s
  rwa [Host.Outcome.next.inj (h.symm.trans hu)]

/-- Settles O13: every command has a transition. -/
theorem everyStepAnswersANextState : Obligations.EveryStepAnswersANextState := by
  intro s
  obtain ⟨t, ht, -⟩ := step_transition s
  exact ⟨t, ht⟩

end Sys2Proof.Machine
end

section
/-! Proofs about the engine cycle and its failures (spec/40_engine_cycle.md, spec/60_exceptions.md). -/

namespace Sys2Proof.Machine

open Claim

/-! ## Fetch, decode, dispatch -/

/-- Settles O6: no arm of `exec` passes an ignored field on. -/
theorem ignoredBitsHaveNoEffect : Obligations.IgnoredBitsHaveNoEffect :=
  fun _ _ _ _ _ _ _ => ⟨rfl, rfl, rfl, rfl, rfl, rfl, rfl⟩

/-- Settles O7: the two bytes are the word that is executed, and `State.entry` is the state the statement writes. -/
theorem stepRunsTheDecodedInstruction : Obligations.StepRunsTheDecodedInstruction := by
  intro s i rest hc he hp hd
  have hpair : (decodeWord (fetchWord s), ([] : List Byte)) = (i, rest) := Except.ok.inj hd
  obtain ⟨rfl, rfl⟩ := Prod.mk.inj hpair
  refine ⟨wellFormed_decodeWord _, rfl, ?_⟩
  rw [step_of_executed (executed_running hc he hp), State.entry_running he]
  rfl

/-- Settles O8: `Clock()` and `Fetch()` both take the fetch phase's failure. -/
theorem fetchBeyondMemoryChangesNothing : Obligations.FetchBeyondMemoryChangesNothing :=
  fun _ hc he hp => ⟨_, step_of_fetch_beyond hc he hp, rfl⟩

/-- Settles O9: in a wait the fetch phase leaves `opcode` and `PC` as they are. -/
theorem keyWaitDispatchesTheHeldWord : Obligations.KeyWaitDispatchesTheHeldWord := by
  intro s hc he
  rw [step_of_executed (executed_awaiting hc he), State.entry_awaiting he]
  rfl

/-- Settles O10: `Fetch()` answers the state in which a handler would run. -/
theorem fetchCommandLoadsWithoutExecuting : Obligations.FetchCommandLoadsWithoutExecuting := by
  intro s hc
  refine ⟨fun he hp => ?_, fun he => ?_⟩
  · exact ⟨s.entry, step_of_fetch hc fun _ => hp, State.entry_opcode_running he,
      State.toNat_entry_pc_running he hp, rfl⟩
  · have hnot : s.engine = .running → s.pc.toNat + 1 < 4096 := fun hr => absurd (he.symm.trans hr) (by decide)
    rw [step_of_fetch hc hnot, State.entry_awaiting he]
    rfl

/-- Settles O11: each accessor is the field of a word, read as a number. -/
theorem fieldsAreSlicesOfOpcode : Obligations.FieldsAreSlicesOfOpcode :=
  fun s => ⟨toNat_fieldX s.opcode, toNat_fieldY s.opcode, toNat_fieldN s.opcode, toNat_fieldNN s.opcode,
    toNat_fieldNNN s.opcode⟩

/-! ## The key wait (R87, R162) -/

theorem exec_ldVxK_of_key (x : Nibble) {s : State} {k : Nibble} (h : s.lowestKey = some k) :
    exec (.ldVxK x) s = .next ((s.setReg x (k.setWidth 8)).setEngine .running) := by
  simp only [exec, execLdVxK, h]

theorem exec_ldVxK_of_none (x : Nibble) {s : State} (h : s.lowestKey = none) :
    exec (.ldVxK x) s = .next (s.setEngine .awaitingKey) := by
  simp only [exec, execLdVxK, h]

theorem toNat_keyByte (k : Nibble) : (k.setWidth 8 : Byte).toNat = k.toNat :=
  BitVec.toNat_setWidth_of_le (by decide)

theorem exists_lowestKey {s : State} (h : ∃ k, s.keyDown k = true) : ∃ k, s.lowestKey = some k := by
  obtain ⟨k, hk⟩ := h
  refine Option.ne_none_iff_exists'.1 fun hnone => ?_
  rw [(lowestKey_eq_none_iff s).1 hnone k] at hk
  exact absurd hk (by decide)

/-- What an instruction answers: its failure or its effect. -/
theorem effect_of_exec {i : Instr} {s t : State} (h : exec i s = .next t) :
    (∃ k, failure i s = some k ∧ t = s.fail k) ∨ (failure i s = none ∧ Effect i s t) := by
  obtain ⟨k, hk, hu⟩ | ⟨hnone, u, hu, heff⟩ := exec_cases i s
  · exact .inl ⟨k, hk, Host.Outcome.next.inj (h.symm.trans hu)⟩
  · exact .inr ⟨hnone, Host.Outcome.next.inj (h.symm.trans hu) ▸ heff⟩

theorem engine_of_exec {i : Instr} {s t : State} (h : exec i s = .next t) (hi : ∀ x, i ≠ .ldVxK x) :
    t.engine = s.engine := by
  obtain ⟨k, -, rfl⟩ | ⟨-, heff⟩ := effect_of_exec h
  · exact State.fail_engine s k
  · exact heff.engine.resolve_right fun ⟨x, hx⟩ => hi x hx

theorem beyond_of_executed_none {s : State} (hc : nextCommand s = .clock) (he : s.engine = .running)
    (h : executed s = none) : 4096 ≤ s.pc.toNat + 1 := by
  by_contra hp
  rw [executed_running hc he (Nat.not_le.1 hp)] at h
  exact absurd h (by simp)

/-- Settles O12: a failed fetch and every instruction but `LD Vx, K` keep the engine; `LD Vx, K` sets it by the lowest
key, and a wait holds an `LD Vx, K`. -/
theorem engineFollowsTheTransitionTable : Obligations.EngineFollowsTheTransitionTable := by
  intro s hw hc
  obtain ⟨t, ht, -⟩ := step_transition s
  have htof {u : State} (hu : step s = .next u) : t = u := Host.Outcome.next.inj (ht.symm.trans hu)
  have hkey {x k : Nibble} (hi : executed s = some (.ldVxK x)) (hk : s.lowestKey = some k) :
      t = (s.entry.setReg x (k.setWidth 8)).setEngine .running :=
    htof ((step_of_executed hi).trans (exec_ldVxK_of_key x hk))
  have hnokey {x : Nibble} (hi : executed s = some (.ldVxK x)) (hk : ∀ k, s.keyDown k = false) :
      t = s.entry.setEngine .awaitingKey :=
    htof ((step_of_executed hi).trans (exec_ldVxK_of_none x ((lowestKey_eq_none_iff s).2 hk)))
  refine ⟨t, ht, ?_, ?_, ?_, ?_, ?_, ?_⟩
  · intro he hnone
    rw [htof (step_of_fetch_beyond (.inl hc) he (beyond_of_executed_none hc he hnone))]
    exact he
  · rintro he ⟨i, hi, hne⟩
    exact (engine_of_exec ((step_of_executed hi).symm.trans ht) hne).trans he
  · intro x hi hk
    rw [hnokey hi hk]
    exact ⟨rfl, rfl⟩
  · intro x k hi hk hlow
    rw [hkey hi ((lowestKey_eq_some_iff s k).2 ⟨hk, hlow⟩)]
    exact ⟨rfl, (congrArg BitVec.toNat (State.reg_setReg_same _ x _)).trans (toNat_keyByte k)⟩
  · intro he hk
    rw [hnokey (executed_of_keyWait hw hc he) hk, State.entry_awaiting he, ← he]
    rfl
  · intro he hk
    obtain ⟨k, hlow⟩ := exists_lowestKey hk
    rw [hkey (executed_of_keyWait hw hc he) hlow]
    rfl

/-! ## `PC` after an instruction (R14) -/

/-- What an access to memory can answer: its action's state, or the failure on the state as it was. -/
theorem next_of_withBytesAtI {n : Nat} {s t u : State} (h : withBytesAtI n s (.next u) = .next t) :
    t = u ∨ t = s.fail .addressOutOfRange := by
  obtain ⟨-, hu⟩ | ⟨-, hu⟩ := withBytesAtI_cases n s (.next u)
  · exact .inl (Host.Outcome.next.inj (h.symm.trans hu))
  · exact .inr (Host.Outcome.next.inj (h.symm.trans hu))

theorem pc_of_withBytesAtI {n : Nat} {s t u : State} (h : withBytesAtI n s (.next u) = .next t) (hu : u.pc = s.pc) :
    t.pc = s.pc := by
  obtain rfl | rfl := next_of_withBytesAtI h
  · exact hu
  · rfl

theorem loadRegs_pc (s : State) (k : Nat) (bs : List Byte) : (s.loadRegs k bs).pc = s.pc := by
  rw [loadRegs_eq]

/-- The two things `LD Vx, K` can answer. -/
theorem next_of_exec_ldVxK {x : Nibble} {s t : State} (h : exec (.ldVxK x) s = .next t) :
    t = s.setEngine .awaitingKey ∨ ∃ k : Nibble, t = (s.setReg x (k.setWidth 8)).setEngine .running := by
  cases hk : s.lowestKey with
  | none => exact .inl (Host.Outcome.next.inj (h.symm.trans (exec_ldVxK_of_none x hk)))
  | some k => exact .inr ⟨k, Host.Outcome.next.inj (h.symm.trans (exec_ldVxK_of_key x hk))⟩

/-- The two things `CALL` can answer. -/
theorem next_of_exec_call {nnn : Addr} {s t : State} (h : exec (.call nnn) s = .next t) :
    (s.sp = 15 ∧ t = s.fail .stackOverflow) ∨ (s.sp ≠ 15 ∧ t = (s.push s.pc).setPc (addrValue nnn)) := by
  by_cases hsp : s.sp = 15
  · exact .inl ⟨hsp, Host.Outcome.next.inj (h.symm.trans (execCall_of_full hsp))⟩
  · exact .inr ⟨hsp, Host.Outcome.next.inj (h.symm.trans (execCall_of_room hsp))⟩

/-- The two things `RET` can answer. -/
theorem next_of_exec_ret {a : Nibble} {s t : State} (h : exec (.ret a) s = .next t) :
    (s.sp = 0 ∧ t = s.fail .stackUnderflow) ∨ (s.sp ≠ 0 ∧ t = s.popPc) := by
  by_cases hsp : s.sp = 0
  · exact .inl ⟨hsp, Host.Outcome.next.inj (h.symm.trans (execRet_of_empty hsp))⟩
  · exact .inr ⟨hsp, Host.Outcome.next.inj (h.symm.trans (execRet_of_entry hsp))⟩

theorem toNat_pc_of_skipIf {c : Bool} {s t : State} (h : skipIf c s = .next t) (hp : s.pc.toNat + 2 < 65536) :
    t.pc.toNat = if c = true then s.pc.toNat + 2 else s.pc.toNat := by
  rw [skipIf_eq] at h
  obtain rfl := Host.Outcome.next.inj h
  have hadd : (s.pc + 2).toNat = s.pc.toNat + 2 := Nat.mod_eq_of_lt (show s.pc.toNat + 2 < 2 ^ 16 from hp)
  cases c
  · rfl
  · exact hadd

theorem toNat_jpV0Target (nnn : Addr) (b : Byte) : (addrValue nnn + wordValue b).toNat = nnn.toNat + b.toNat := by
  have := nnn.isLt
  have := b.isLt
  rw [BitVec.toNat_add, toNat_addrValue, toNat_wordValue]
  omega

theorem lowNibble_eq_ofNat (b : Byte) : lowNibble b = BitVec.ofNat 4 b.toNat := by
  apply BitVec.eq_of_toNat_eq
  rw [toNat_lowNibble, BitVec.toNat_ofNat]

/-- Settles O14: with `p + 2` in `PC` when the handler runs, the four transfers and the six skips give what the table
says, and every other instruction, one that fails too, leaves `PC`. -/
theorem pcAfterEveryInstruction : Obligations.PcAfterEveryInstruction := by
  intro s t i he hi ht
  rw [step_of_executed hi] at ht
  have hp := canFetch_of_executed hi he
  have hpc : s.entry.pc.toNat = s.pc.toNat + 2 := State.toNat_entry_pc_running he hp
  have hskip {c : Bool} (h : skipIf c s.entry = .next t) :
      t.pc.toNat = if c = true then s.pc.toNat + 4 else s.pc.toNat + 2 := by
    rw [toNat_pc_of_skipIf h (by omega), hpc]
  cases i with
  | jp nnn =>
    obtain rfl := Host.Outcome.next.inj ht
    exact toNat_addrValue nnn
  | call nnn =>
    obtain ⟨hsp, rfl⟩ | ⟨hsp, rfl⟩ := next_of_exec_call ht
    · exact hpc.trans (if_pos hsp).symm
    · exact (toNat_addrValue nnn).trans (if_neg hsp).symm
  | ret a =>
    obtain ⟨hsp, rfl⟩ | ⟨hsp, rfl⟩ := next_of_exec_ret ht
    · exact hpc.trans (if_pos hsp).symm
    · exact (if_neg hsp).symm
  | jpV0 nnn =>
    obtain rfl := Host.Outcome.next.inj ht
    exact toNat_jpV0Target nnn _
  | seImm x nn => simpa only [beq_iff_eq, State.entry_reg, pcAfter] using hskip ht
  | sneImm x nn => simpa only [bne_iff_ne, ite_not, State.entry_reg, pcAfter] using hskip ht
  | seReg x y n => simpa only [beq_iff_eq, State.entry_reg, pcAfter] using hskip ht
  | sneReg x y n => simpa only [bne_iff_ne, ite_not, State.entry_reg, pcAfter] using hskip ht
  | skp x => simpa only [lowNibble_eq_ofNat, State.entry_reg, State.entry_keyDown, pcAfter] using hskip ht
  | sknp x =>
    simpa only [lowNibble_eq_ofNat, State.entry_reg, State.entry_keyDown, pcAfter, Bool.not_eq_true',
      ← Bool.not_eq_true, ite_not] using hskip ht
  | drw x y n => exact (congrArg BitVec.toNat (pc_of_withBytesAtI ht rfl)).trans hpc
  | ldB x => exact (congrArg BitVec.toNat (pc_of_withBytesAtI ht rfl)).trans hpc
  | ldMemVx x => exact (congrArg BitVec.toNat (pc_of_withBytesAtI ht rfl)).trans hpc
  | ldVxMem x => exact (congrArg BitVec.toNat (pc_of_withBytesAtI ht (loadRegs_pc _ _ _))).trans hpc
  | ldVxK x =>
    obtain rfl | ⟨k, rfl⟩ := next_of_exec_ldVxK ht
    · exact hpc
    · exact hpc
  | _ =>
    obtain rfl := Host.Outcome.next.inj ht
    exact hpc

/-! ## Failures (R90, R190, R199) -/

/-- Settles O15: an instruction that does not fail leaves the reply `Ok` that it met, and one that fails leaves every
other field as the fetch left it. -/
theorem failedInstructionLeavesOnlyFetchEffects : Obligations.FailedInstructionLeavesOnlyFetchEffects := by
  intro s t k he hex ht hk
  obtain ⟨i, hi⟩ := Option.ne_none_iff_exists'.1 hex
  rw [step_of_executed hi] at ht
  obtain ⟨j, -, rfl⟩ | ⟨-, heff⟩ := effect_of_exec ht
  · obtain rfl := Reply.err.inj hk
    rw [State.entry_running he]
    rfl
  · rw [heff.reply] at hk
    exact absurd hk (by simp)

/-- An access of the instruction `i` would touch a byte at or beyond 4096 (R45). -/
def AccessBeyond (s : State) (i : Instr) : Prop :=
  (∃ x y n, i = .drw x y n ∧ 1 ≤ n.toNat ∧ 4096 ≤ s.i.toNat + n.toNat - 1) ∨
  (∃ x, i = .ldB x ∧ 4096 ≤ s.i.toNat + 2) ∨
  (∃ x, i = .ldMemVx x ∧ 4096 ≤ s.i.toNat + x.toNat) ∨
  (∃ x, i = .ldVxMem x ∧ 4096 ≤ s.i.toNat + x.toNat)

/-- The three failures an instruction can take, each with the instruction and the condition that take it. -/
theorem raiser_of_failure {i : Instr} {s : State} {k : Failure} (h : failure i s = some k) :
    (k = .stackOverflow ∧ s.sp = 15 ∧ ∃ a, i = .call a) ∨
    (k = .stackUnderflow ∧ s.sp = 0 ∧ ∃ a, i = .ret a) ∨
    (k = .addressOutOfRange ∧ AccessBeyond s i) := by
  cases i with
  | call nnn =>
    obtain ⟨hsp, hk⟩ := Option.ite_none_right_eq_some.1 h
    exact .inl ⟨(Option.some.inj hk).symm, hsp, nnn, rfl⟩
  | ret a =>
    obtain ⟨hsp, hk⟩ := Option.ite_none_right_eq_some.1 h
    exact .inr (.inl ⟨(Option.some.inj hk).symm, hsp, a, rfl⟩)
  | drw x y n =>
    obtain ⟨⟨hn, hi⟩, hk⟩ := Option.ite_none_right_eq_some.1 h
    exact .inr (.inr ⟨(Option.some.inj hk).symm, .inl ⟨x, y, n, rfl, by omega, by omega⟩⟩)
  | ldB x =>
    obtain ⟨hi, hk⟩ := Option.ite_none_right_eq_some.1 h
    exact .inr (.inr ⟨(Option.some.inj hk).symm, .inr (.inl ⟨x, rfl, by omega⟩)⟩)
  | ldMemVx x =>
    obtain ⟨hi, hk⟩ := Option.ite_none_right_eq_some.1 h
    exact .inr (.inr ⟨(Option.some.inj hk).symm, .inr (.inr (.inl ⟨x, rfl, by omega⟩))⟩)
  | ldVxMem x =>
    obtain ⟨hi, hk⟩ := Option.ite_none_right_eq_some.1 h
    exact .inr (.inr ⟨(Option.some.inj hk).symm, .inr (.inr (.inr ⟨x, rfl, by omega⟩))⟩)
  | _ => exact absurd h (by simp [failure])

/-- A wait's `LD Vx, K` cannot fail, so an instruction that fails was fetched. -/
theorem running_of_failure {s : State} {i : Instr} {k : Failure} (hw : HoldsKeyWait s) (hi : executed s = some i)
    (hk : failure i s.entry = some k) : s.engine = .running := by
  cases he : s.engine with
  | running => rfl
  | awaitingKey =>
    obtain rfl := Option.some.inj (hi.symm.trans (executed_of_keyWait hw (nextCommand_of_executed hi) he))
    exact absurd hk (by simp [failure])

/-- Settles O16: five transitions reply `Err(k)`, and each names its raiser; the others reply `Ok`. -/
theorem eachFailureComesFromItsRaisers : Obligations.EachFailureComesFromItsRaisers := by
  intro s t k hw ht hr
  cases transition_of_step ht with
  | @fails i j hi hk =>
    obtain rfl := Reply.err.inj hr
    obtain ⟨rfl, hsp, ha⟩ | ⟨rfl, hsp, ha⟩ | ⟨rfl, hbeyond⟩ := raiser_of_failure hk
    · exact ⟨hsp, i, hi, ha⟩
    · exact ⟨hsp, i, hi, ha⟩
    · exact ⟨.inr (nextCommand_of_executed hi), running_of_failure hw hi hk, .inr ⟨i, hi, hbeyond⟩⟩
  | fetchFails hc he hp =>
    obtain rfl := Reply.err.inj hr
    exact ⟨hc.symm, he, .inl hp⟩
  | keyRefused hc hk =>
    obtain rfl := Reply.err.inj hr
    exact ⟨_, _, hc, hk⟩
  | romRefused hc hn =>
    obtain rfl := Reply.err.inj hr
    exact ⟨_, hc, hn⟩
  | runs hi hx heff => exact absurd (heff.reply.symm.trans hr) (by simp)
  | fetches | resets | ticks | keySet | romLoaded => exact absurd hr (by simp [State.reset])

/-- The record of failures in `t` is the one of `s`, with the failure of `t`'s reply added where there was none. -/
def RecordKept (s t : State) : Prop :=
  (∀ k, s.failed = some k → t.failed = some k) ∧
  (∀ k, s.failed = none → t.reply = .err k → t.failed = some k) ∧
  (t.reply = .ok → t.failed = s.failed)

theorem recordKept_fail {s u : State} (k : Failure) (hu : u.failed = s.failed) : RecordKept s (u.fail k) := by
  refine ⟨fun j hj => ?_, fun j hj hr => ?_, fun hr => ?_⟩
  · rw [State.fail_failed, hu, hj, Option.getD_some]
  · rw [State.fail_failed, hu, hj, Option.getD_none, Reply.err.inj hr]
  · exact absurd hr (by simp)

theorem recordKept_of_ok {s t : State} (hr : t.reply = .ok) (hf : t.failed = s.failed) : RecordKept s t :=
  ⟨fun _ hk => hf.trans hk, fun _ _ hk => absurd (hr.symm.trans hk) (by simp), fun _ => hf⟩

theorem recordKept_of_transition {s t : State} (htr : Transition s t) : RecordKept s t := by
  cases htr with
  | runs hi hx heff => exact recordKept_of_ok heff.reply heff.failed
  | fails | fetchFails | keyRefused | romRefused => exact recordKept_fail _ rfl
  | fetches | resets | ticks | keySet | romLoaded => exact recordKept_of_ok rfl rfl

/-- Settles O17: a transition that fails records through `State.fail`, and one that replies `Ok` keeps the record. -/
theorem failureRecordIsNeverCleared : Obligations.FailureRecordIsNeverCleared :=
  fun _ _ ht => recordKept_of_transition (transition_of_step ht)

end Sys2Proof.Machine
end

section
/-! Proofs about the invariant of the machine's states (spec/10_state.md, spec/70_reset_and_hazards.md): it holds at
power-on and at launch, and every transition keeps each of its clauses. -/

namespace Sys2Proof.Machine

open Claim

/-! ## Power-on and launch -/

theorem stackSound_reset : StackSound State.reset := ⟨by decide, getElem_stack_reset (by decide)⟩

theorem pcBounded_reset : PcBounded State.reset := by
  refine ⟨by decide, fun k hk => ?_⟩
  rw [getElem_stack_reset hk]
  decide

/-- Settles O18: nothing is listed in memory, the stack is zero, the engine runs and the reply is `Ok`. -/
theorem powerOnStateMeetsTheInvariant : Obligations.PowerOnStateMeetsTheInvariant where
  memory := Memory.wf_nil
  stack := stackSound_reset
  pc := pcBounded_reset
  wait := fun h => absurd h (by decide)
  rom := Nat.zero_le 3584
  record := fun h => absurd rfl h

/-- Settles O21: a launch state is power-on with the ROM written into an empty memory list, which keeps the canonical
form because the ROM ends at or below 4096. -/
theorem launchMemoryIsRomOverPowerOnImage : Obligations.LaunchMemoryIsRomOverPowerOnImage := by
  rintro rom commands s ⟨hlen, rfl⟩
  have hread := Memory.read_writeBytes Memory.wf_nil.1 0x200 rom
  refine ⟨?_, rfl, fun k hk => ?_, fun a ha => ?_⟩
  · exact {
      memory := Memory.wf_writeBytes Memory.wf_nil (by rw [Config.memSize_eq]; omega)
      stack := stackSound_reset
      pc := pcBounded_reset
      wait := powerOnStateMeetsTheInvariant.wait
      rom := hlen
      record := powerOnStateMeetsTheInvariant.record }
  · exact (hread (0x200 + k)).trans (by rw [if_pos (by omega), Nat.add_sub_cancel_left])
  · exact (hread a).trans (if_neg (by omega))

/-! ## What an instruction keeps -/

/-- A store that has not failed ends at or below 4096. -/
theorem memoryCanonical_exec {i : Instr} {s t : State} (hs : MemoryCanonical s) (h : exec i s = .next t) :
    MemoryCanonical t := by
  unfold MemoryCanonical at *
  obtain ⟨k, -, rfl⟩ | ⟨hnone, heff⟩ := effect_of_exec h
  · exact hs
  · obtain hmem | ⟨x, rfl, hmem⟩ | ⟨x, rfl, hmem⟩ := heff.mem
    · rwa [hmem]
    · rw [hmem]
      have hfit : ¬ 4096 < s.i.toNat + 3 := by simpa [failure] using hnone
      exact Memory.wf_writeBytes hs (by rw [length_decimalDigits, Config.memSize_eq]; omega)
    · rw [hmem]
      have hfit : ¬ 4096 < s.i.toNat + (x.toNat + 1) := by simpa [failure] using hnone
      exact Memory.wf_writeBytes hs (by rw [length_regsUpTo, Config.memSize_eq]; omega)

/-- A `CALL` that has not failed pushes below entry 15, and a `RET` that has not failed finds `SP` above 0. -/
theorem stackSound_exec {i : Instr} {s t : State} (hs : StackSound s) (h : exec i s = .next t) : StackSound t := by
  obtain ⟨hsp, h15⟩ := hs
  obtain ⟨k, -, rfl⟩ | ⟨hnone, heff⟩ := effect_of_exec h
  · exact ⟨hsp, h15⟩
  · have hcall {a : Addr} (hi : i = .call a) : s.sp.toNat < 15 := by
      have hne : s.sp ≠ 15 := by simpa [hi, failure] using hnone
      exact Nat.lt_of_le_of_ne hsp (BitVec.toNat_ne.1 hne)
    constructor
    · obtain he | ⟨a, hi, he⟩ | ⟨a, hi, he⟩ := heff.sp
      · rwa [he]
      · rw [he, toNat_incr hsp]
        exact hcall hi
      · have hne : s.sp ≠ 0 := by simpa [hi, failure] using hnone
        rw [he, toNat_decr hne]
        omega
    · obtain he | ⟨a, hi, he⟩ := heff.stack
      · simpa only [he] using h15
      · have := hcall hi
        have hne : ¬ 15 = s.sp.toNat % 16 := by omega
        simpa only [he, getElem_stack_push, if_neg hne] using h15

/-- From a `PC` that a fetch leaves, every way to move `PC` (R14) stays within `0x10FE`, and what `CALL` pushes within
`0x1000`. -/
theorem pcBounded_exec {i : Instr} {s t : State} (hpc : s.pc.toNat ≤ 0x1000)
    (hst : ∀ k, (h : k < 16) → s.stack[k].toNat ≤ 0x1000) (h : exec i s = .next t) : PcBounded t := by
  obtain ⟨k, -, rfl⟩ | ⟨-, heff⟩ := effect_of_exec h
  · exact ⟨Nat.le_trans hpc (by decide), hst⟩
  · constructor
    · obtain he | he | he | ⟨a, -, he⟩ := heff.pc
      · rw [he]
        omega
      · rw [he, BitVec.toNat_add]
        exact Nat.le_trans (Nat.mod_le _ _) (Nat.le_trans (Nat.add_le_add_right hpc 2) (by decide))
      · exact he
      · rw [he]
        exact Nat.le_trans (hst _ _) (by decide)
    · intro k hk
      obtain he | ⟨a, -, he⟩ := heff.stack
      · simpa only [he] using hst k hk
      · simp only [he, getElem_stack_push]
        split
        · exact hpc
        · exact hst k hk

/-! ## What a transition keeps, clause by clause -/

section
variable {s t : State}

theorem memoryCanonical_of_transition (hs : MemoryCanonical s) (htr : Transition s t) : MemoryCanonical t := by
  cases htr with
  | runs hi hx heff => exact memoryCanonical_exec (s := s.entry) hs hx
  | romLoaded hc hn => exact Memory.wf_writeBytes hs (by rw [Config.memSize_eq]; omega)
  | fails | fetchFails | fetches | resets | ticks | keyRefused | keySet | romRefused => exact hs

theorem stackSound_of_transition (hs : StackSound s) (htr : Transition s t) : StackSound t := by
  cases htr with
  | runs hi hx heff => exact stackSound_exec (s := s.entry) hs hx
  | resets => exact stackSound_reset
  | fails | fetchFails | fetches | ticks | keyRefused | keySet | romRefused | romLoaded => exact hs

/-- `PC` stands within `0x1000` after the fetch phase in `Running`, and is not moved by it in a wait. -/
theorem pcBounded_entry (hs : PcBounded s) (hp : s.engine = .running → s.pc.toNat + 1 < 4096) : PcBounded s.entry := by
  refine ⟨?_, hs.2⟩
  cases he : s.engine with
  | running =>
    have := hp he
    rw [State.toNat_entry_pc_running he this]
    omega
  | awaitingKey =>
    rw [State.entry_pc_awaiting he]
    exact hs.1

theorem pcBounded_of_executed {i : Instr} (hs : PcBounded s) (hw : HoldsKeyWait s) (hi : executed s = some i)
    (hx : exec i s.entry = .next t) : PcBounded t := by
  cases he : s.engine with
  | running =>
    have hp := canFetch_of_executed hi he
    refine pcBounded_exec (s := s.entry) ?_ hs.2 hx
    rw [State.toNat_entry_pc_running he hp]
    omega
  | awaitingKey =>
    obtain rfl := Option.some.inj (hi.symm.trans (executed_of_keyWait hw (nextCommand_of_executed hi) he))
    have hentry := pcBounded_entry hs (fun hr => absurd (he.symm.trans hr) (by decide))
    obtain rfl | ⟨k, rfl⟩ := next_of_exec_ldVxK hx
    · exact hentry
    · exact hentry

theorem pcBounded_of_transition (hs : PcBounded s) (hw : HoldsKeyWait s) (htr : Transition s t) : PcBounded t := by
  cases htr with
  | runs hi hx heff => exact pcBounded_of_executed hs hw hi hx
  | fails hi hk => exact pcBounded_of_executed hs hw hi (exec_of_failure hk)
  | fetches hc hp => exact pcBounded_entry hs hp
  | resets => exact pcBounded_reset
  | fetchFails | ticks | keyRefused | keySet | romRefused | romLoaded => exact hs

theorem holdsKeyWait_entry (hw : HoldsKeyWait s) : HoldsKeyWait s.entry := by
  intro he
  rw [State.entry_opcode_awaiting (s := s) he]
  exact hw he

/-- Only an `LD Vx, K` leaves the engine waiting, and it is the word held. -/
theorem holdsKeyWait_of_transition (hw : HoldsKeyWait s) (htr : Transition s t) : HoldsKeyWait t := by
  cases htr with
  | runs hi hx heff =>
    intro he
    rw [heff.opcode]
    obtain heng | ⟨x, rfl⟩ := heff.engine
    · exact holdsKeyWait_entry hw (heng.symm.trans he)
    · exact keyWait_of_decodeWord (decodeWord_entry_opcode hi)
  | fails | fetches => exact holdsKeyWait_entry hw
  | resets => exact powerOnStateMeetsTheInvariant.wait
  | fetchFails | ticks | keyRefused | keySet | romRefused | romLoaded => exact hw

theorem romLenBounded_of_transition (hs : RomLenBounded s) (htr : Transition s t) : RomLenBounded t := by
  cases htr with
  | runs hi hx heff => exact Nat.le_trans (Nat.le_of_eq heff.romLen) hs
  | romLoaded hc hn => exact hn
  | fails | fetchFails | fetches | resets | ticks | keyRefused | keySet | romRefused => exact hs

theorem failureRecorded_of_transition (htr : Transition s t) : FailureRecorded t := by
  obtain ⟨hkeep, hfirst, -⟩ := recordKept_of_transition htr
  intro hr
  cases hreply : t.reply with
  | ok => exact absurd hreply hr
  | err k =>
    cases hs : s.failed with
    | none => simp [hfirst k hs hreply]
    | some j => simp [hkeep j hs]

end

/-- Settles O19: each clause is kept by every transition; the bound on `PC` also needs that a wait holds its word, since
a handler that ran in a wait without a fetch could move `PC` further. -/
theorem everyStepKeepsTheInvariant : Obligations.EveryStepKeepsTheInvariant := by
  intro s t hs ht
  have htr := transition_of_step ht
  exact {
    memory := memoryCanonical_of_transition hs.memory htr
    stack := stackSound_of_transition hs.stack htr
    pc := pcBounded_of_transition hs.pc hs.wait htr
    wait := holdsKeyWait_of_transition hs.wait htr
    rom := romLenBounded_of_transition hs.rom htr
    record := failureRecorded_of_transition htr }

end Sys2Proof.Machine
end

section
/-! Proofs about the host commands (spec/46_host_operations.md): the keypad, the ROM load and the reset. -/

namespace Sys2Proof.Machine

open Claim

/-! ## The keypad (R175) -/

theorem State.keyDown_setKey (s : State) (k j : Nibble) (p : Bool) :
    (s.setKey k p).keyDown j = if j = k then p else s.keyDown j := by
  by_cases h : j = k
  · subst h
    simp [State.keyDown]
  · simp [State.keyDown, h, BitVec.toNat_ne.1 (Ne.symm h)]

theorem step_setKeypress_key {s : State} {k : Nibble} {p : Bool} (hc : nextCommand s = .setKeypress k.toNat p) :
    step s = .next ((s.issued.setKey k p).setReply .ok) := by
  have hk := k.isLt
  rw [step_of_command hc, runCommand, setKeypress, if_neg (by omega), BitVec.ofInt_natCast, BitVec.ofNat_toNat,
    BitVec.setWidth_eq]

theorem step_setKeypress_outside {s : State} {key : Int} {p : Bool} (hc : nextCommand s = .setKeypress key p)
    (hk : key < 0 ∨ 15 < key) : step s = .next (s.issued.fail .invalidArgument) := by
  rw [step_of_command hc]
  exact if_pos hk

/-- Settles O23: a key that is the number of a nibble is in range and sets that flag. -/
theorem setKeypressWritesOneFlagOrFails : Obligations.SetKeypressWritesOneFlagOrFails := by
  intro s key p hc
  refine ⟨?_, fun hk => ⟨_, step_setKeypress_outside hc hk, rfl⟩⟩
  rintro k rfl
  exact ⟨_, step_setKeypress_key hc, (State.keyDown_setKey s.issued k k p).trans (if_pos rfl),
    fun j hj => (State.keyDown_setKey s.issued k j p).trans (if_neg hj), rfl⟩

/-! ## The ROM load (R172, R194) -/

theorem step_loadRom_tooLarge {s : State} {bytes : List Byte} (hc : nextCommand s = .loadRom bytes)
    (hn : 3584 < bytes.length) : step s = .next (s.issued.fail .capacityExceeded) := by
  rw [step_of_command hc]
  exact if_pos hn

theorem step_loadRom_fits {s : State} {bytes : List Byte} (hc : nextCommand s = .loadRom bytes)
    (hn : bytes.length ≤ 3584) :
    step s = .next (((s.issued.setMem (s.mem.writeBytes 0x200 bytes)).setRomLen bytes.length).setReply .ok) := by
  rw [step_of_command hc]
  exact if_neg (Nat.not_lt.2 hn)

/-- Settles O24: the failure is taken before anything is written. -/
theorem loadRomTooLargeFailsAtomically : Obligations.LoadRomTooLargeFailsAtomically :=
  fun _ _ hc hn => ⟨_, step_loadRom_tooLarge hc hn, rfl⟩

/-- Settles O25: a byte of the new memory is the ROM's inside the written range and the old one outside it. -/
theorem loadRomWritesExactlyItsBytes : Obligations.LoadRomWritesExactlyItsBytes := by
  intro s bytes hs hc hn
  have hread := Memory.read_writeBytes hs.1 0x200 bytes
  refine ⟨_, step_loadRom_fits hc hn, fun k hk => ?_, fun a ha => ?_, rfl⟩
  · exact (hread (0x200 + k)).trans (by rw [if_pos (by omega), Nat.add_sub_cancel_left])
  · exact (hread a).trans (if_neg (by omega))

/-! ## The reset (R221) -/

/-- Settles O26: `resetCommand` is the record the statement writes, on the state with the command taken off. -/
theorem resetRestoresRegistersAndKeepsMemory : Obligations.ResetRestoresRegistersAndKeepsMemory :=
  fun _ hc => step_reset hc

end Sys2Proof.Machine
end

section
/-! Who writes what (spec/10_state.md): each field by the transitions that may change it. -/

namespace Sys2Proof.Machine

open Claim

/-! ## Fields of the spec's state other than `V` and memory -/

/-- Settles O28: of the transitions other than a reset only one that runs a handler can change these fields. -/
theorem indexFramebufferAndEngineHaveFewWriters : Obligations.IndexFramebufferAndEngineHaveFewWriters := by
  intro s t ht hnot
  cases transition_of_step ht with
  | runs hi hx heff =>
    exact ⟨fun h => ⟨_, hi, heff.index.resolve_left h⟩, fun h => ⟨_, hi, heff.fb.resolve_left h⟩,
      fun h => ⟨_, hi, heff.engine.resolve_left h⟩⟩
  | resets hc => exact absurd hc hnot
  | fails | fetchFails | fetches | ticks | keyRefused | keySet | romRefused | romLoaded =>
    exact ⟨(absurd rfl ·), (absurd rfl ·), (absurd rfl ·)⟩

/-- Settles O29: a handler that changes `SP` is one of two, and a push changes the entry at `SP` alone. -/
theorem onlyCallAndRetMoveTheStack : Obligations.OnlyCallAndRetMoveTheStack := by
  intro s t hs ht
  cases transition_of_step ht with
  | @runs i t hi hx heff =>
    refine ⟨fun h => .inr ⟨i, hi, ?_⟩, fun k hk h => .inr ?_⟩
    · obtain ⟨a, hcall, -⟩ | ⟨a, hret, -⟩ := heff.sp.resolve_left h
      · exact .inl ⟨a, hcall⟩
      · exact .inr ⟨a, hret⟩
    · obtain he | ⟨a, hcall, he⟩ := heff.stack
      · exact absurd (by simp only [he, State.entry_stack]) h
      · refine ⟨?_, i, hi, a, hcall⟩
        have hsp := hs.1
        by_contra hne
        have hne' : ¬ k = s.entry.sp.toNat % 16 := by rw [State.entry_sp]; omega
        simp only [he, getElem_stack_push, if_neg hne', State.entry_stack] at h
        exact h rfl
  | resets hc => exact ⟨fun _ => .inl hc, fun _ _ _ => .inl hc⟩
  | fails | fetchFails | fetches | ticks | keyRefused | keySet | romRefused | romLoaded =>
    exact ⟨(absurd rfl ·), fun _ _ => (absurd rfl ·)⟩

/-- Settles O30: beside the tick and the reset, only a handler changes a timer, and the one that does sets it from
`Vx`. -/
theorem onlyTimerWritesChangeTheTimers : Obligations.OnlyTimerWritesChangeTheTimers := by
  intro s t ht
  cases transition_of_step ht with
  | runs hi hx heff =>
    exact ⟨fun h => .inr (.inr ⟨_, hi, heff.dt.resolve_left h⟩),
      fun h => .inr (.inr ⟨_, hi, heff.st.resolve_left h⟩)⟩
  | ticks hc => exact ⟨fun _ => .inl hc, fun _ => .inl hc⟩
  | resets hc => exact ⟨fun _ => .inr (.inl hc), fun _ => .inr (.inl hc)⟩
  | fails | fetchFails | fetches | keyRefused | keySet | romRefused | romLoaded =>
    exact ⟨(absurd rfl ·), (absurd rfl ·)⟩

/-- Settles O31: no handler changes either field, and the reset keeps both. -/
theorem onlyTheHostWritesKeypadAndRomLength : Obligations.OnlyTheHostWritesKeypadAndRomLength := by
  intro s t ht
  cases transition_of_step ht with
  | runs hi hx heff => exact ⟨(absurd heff.key ·), (absurd heff.romLen ·)⟩
  | keySet hc => exact ⟨fun _ => ⟨_, _, hc⟩, (absurd rfl ·)⟩
  | romLoaded hc hn => exact ⟨(absurd rfl ·), fun _ => ⟨_, hc, rfl⟩⟩
  | fails | fetchFails | fetches | resets | ticks | keyRefused | romRefused =>
    exact ⟨(absurd rfl ·), (absurd rfl ·)⟩

/-! ## The registers `V` (R12) -/

section
variable (s : State) {x r : Nibble}

theorem State.reg_setFlagThenReg_ne (f b : Byte) (h : ¬ (r = x ∨ r = 0xF)) :
    (s.setFlagThenReg f x b).reg r = s.reg r := by
  obtain ⟨hx, hF⟩ := not_or.1 h
  rw [reg_setFlagThenReg, if_neg hx, if_neg (show r ≠ flagReg from hF)]

theorem State.reg_setFlag_ne (b : Byte) (h : r ≠ 0xF) : (s.setFlag b).reg r = s.reg r := State.reg_setReg_ne s b h

theorem reg_loadRegs_bytesAtI : (s.loadRegs 0 (bytesAtI s (countValue x + 1))).reg r =
    if r.toNat ≤ x.toNat then s.mem.read (effAddr s r.toNat) else s.reg r := by
  have hx := x.isLt
  rw [reg_loadRegs s 0 _ (by rw [length_bytesAtI, countValue]; omega), length_bytesAtI, countValue]
  by_cases hr : r.toNat ≤ x.toNat
  · rw [if_pos (by omega), if_pos hr, Nat.sub_zero, getD_bytesAtI s _ _ (by omega), effAddr_eq]
  · rw [if_neg (by omega), if_neg hr]

end

/-- An access to memory changes no register that its action does not. -/
theorem reg_of_withBytesAtI {n : Nat} {s t u : State} {r : Nibble} (h : withBytesAtI n s (.next u) = .next t)
    (hu : u.reg r = s.reg r) : t.reg r = s.reg r := by
  obtain rfl | rfl := next_of_withBytesAtI h
  · exact hu
  · rfl

theorem reg_of_skipIf {c : Bool} {s t : State} {r : Nibble} (h : skipIf c s = .next t) : t.reg r = s.reg r := by
  rw [skipIf_eq] at h
  obtain rfl := Host.Outcome.next.inj h
  rfl

/-- A register that an instruction does not write keeps its value. -/
theorem reg_of_exec {i : Instr} {s t : State} {r : Nibble} (h : exec i s = .next t) (hr : ¬ writesReg r i) :
    t.reg r = s.reg r := by
  cases i with
  | ldImm x | addImm x | ldReg x | orReg x | andReg x | xorReg x | ldVxDt x =>
    obtain rfl := Host.Outcome.next.inj h
    exact State.reg_setReg_ne s _ hr
  | rnd x nn =>
    obtain rfl := Host.Outcome.next.inj h
    exact State.reg_setReg_ne s.rngNext.2 _ hr
  | addReg x y | subReg x y | shr x y | subnReg x y | shl x y =>
    obtain rfl := Host.Outcome.next.inj h
    exact State.reg_setFlagThenReg_ne s _ _ hr
  | drw x y n => exact reg_of_withBytesAtI h (State.reg_setFlag_ne _ _ hr)
  | ldVxMem x => exact reg_of_withBytesAtI h ((reg_loadRegs_bytesAtI s).trans (if_neg hr))
  | ldVxK x =>
    obtain rfl | ⟨k, rfl⟩ := next_of_exec_ldVxK h
    · rfl
    · exact State.reg_setReg_ne s _ hr
  | call nnn =>
    obtain ⟨-, rfl⟩ | ⟨-, rfl⟩ := next_of_exec_call h
    · rfl
    · rfl
  | ret a =>
    obtain ⟨-, rfl⟩ | ⟨-, rfl⟩ := next_of_exec_ret h
    · rfl
    · rfl
  | seImm | sneImm | seReg | sneReg | skp | sknp => exact reg_of_skipIf h
  | ldB | ldMemVx => exact reg_of_withBytesAtI h rfl
  | cls | jp | ldI | jpV0 | ldDtVx | ldStVx | addI | ldF | nop =>
    obtain rfl := Host.Outcome.next.inj h
    rfl

/-- Settles O32: a handler changes no register that its instruction does not write, and no other transition but the
reset changes one. -/
theorem registersChangeOnlyAsDestinationOrFlag : Obligations.RegistersChangeOnlyAsDestinationOrFlag := by
  intro s t r ht hne
  cases transition_of_step ht with
  | runs hi hx heff => exact .inr ⟨_, hi, by_contra fun hr => hne (reg_of_exec (s := s.entry) hx hr)⟩
  | resets hc => exact .inl hc
  | fails | fetchFails | fetches | ticks | keyRefused | keySet | romRefused | romLoaded => exact absurd rfl hne

/-! ## Memory (R25, R47) -/

theorem mem_of_exec {i : Instr} {s t : State} (h : exec i s = .next t) (hi : storeSpan s i = none) : t.mem = s.mem := by
  obtain ⟨k, -, rfl⟩ | ⟨-, heff⟩ := effect_of_exec h
  · rfl
  · obtain hmem | ⟨x, rfl, -⟩ | ⟨x, rfl, -⟩ := heff.mem
    · exact hmem
    · exact absurd hi (by simp [storeSpan])
    · exact absurd hi (by simp [storeSpan])

theorem read_writeBytes_outside {s : State} (hs : MemoryCanonical s) {a b : Nat} {bs : List Byte}
    (hb : b < a ∨ a + bs.length ≤ b) : (s.mem.writeBytes a bs).read b = s.mem.read b := by
  rw [Memory.read_writeBytes hs.1, if_neg (by omega)]

/-- A store changes no byte outside its span, failed or not. -/
theorem read_of_exec_outside {i : Instr} {s t : State} (hs : MemoryCanonical s) (h : exec i s = .next t) {a n b : Nat}
    (hspan : storeSpan s i = some (a, n)) (hb : b < a ∨ a + n ≤ b) : t.mem.read b = s.mem.read b := by
  obtain ⟨k, -, rfl⟩ | ⟨-, heff⟩ := effect_of_exec h
  · rfl
  · obtain hmem | ⟨x, rfl, hmem⟩ | ⟨x, rfl, hmem⟩ := heff.mem
    · rw [hmem]
    · obtain ⟨rfl, rfl⟩ := Prod.mk.inj (Option.some.inj hspan)
      rw [hmem]
      exact read_writeBytes_outside hs hb
    · obtain ⟨rfl, rfl⟩ := Prod.mk.inj (Option.some.inj hspan)
      rw [hmem]
      exact read_writeBytes_outside hs (by rwa [length_regsUpTo])

/-- Settles O33: the two stores write consecutive bytes from `I`, and no other transition but the ROM load changes
memory. -/
theorem memoryChangesOnlyWhereStored : Obligations.MemoryChangesOnlyWhereStored := by
  refine ⟨fun i s t hs h => ⟨fun a n hspan b hb => read_of_exec_outside hs h hspan hb, fun hspan b => ?_⟩,
    fun s t ht hne => ?_⟩
  · rw [mem_of_exec h hspan]
  · cases transition_of_step ht with
    | runs hi hx heff => exact .inr ⟨_, hi, fun hspan => hne (mem_of_exec (s := s.entry) hx hspan)⟩
    | romLoaded hc hn => exact .inl ⟨_, hc⟩
    | fails | fetchFails | fetches | resets | ticks | keyRefused | keySet | romRefused => exact absurd rfl hne

end Sys2Proof.Machine
end

section
/-! Proofs about control flow (spec/41_control_flow.md): the indexed jump, the stack, the skips on registers and
keys. -/

namespace Sys2Proof.Machine

open Claim

/-! ## Jump and skips -/

theorem exec_jpV0 (nnn : Addr) (s : State) :
    exec (.jpV0 nnn) s = .next (s.setPc (addrValue nnn + wordValue (s.reg 0))) := rfl

theorem exec_seReg (x y n : Nibble) (s : State) : exec (.seReg x y n) s = skipIf (s.reg x == s.reg y) s := rfl

theorem exec_sneReg (x y n : Nibble) (s : State) : exec (.sneReg x y n) s = skipIf (s.reg x != s.reg y) s := rfl

theorem exec_skp (x : Nibble) (s : State) : exec (.skp x) s = skipIf (s.keyDown (lowNibble (s.reg x))) s := rfl

theorem exec_sknp (x : Nibble) (s : State) : exec (.sknp x) s = skipIf (!s.keyDown (lowNibble (s.reg x))) s := rfl

/-- Settles O36: the sum of a 12-bit and an 8-bit number does not wrap at 16 bits. -/
theorem jumpWithOffsetAddsV0 : Obligations.JumpWithOffsetAddsV0 :=
  fun nnn s => ⟨_, exec_jpV0 nnn s, toNat_jpV0Target nnn (s.reg 0), rfl⟩

/-- Settles O42: both instructions are `skipIf` of a comparison of `Vx` with `Vy`. -/
theorem skipsOnRegisters : Obligations.SkipsOnRegisters :=
  fun x y n s => ⟨(exec_seReg x y n s).trans (skipIf_beq (s.reg x) (s.reg y) s),
    (exec_sneReg x y n s).trans (skipIf_bne (s.reg x) (s.reg y) s)⟩

theorem skipIf_not (c : Bool) (s : State) :
    skipIf (!c) s = .next { s with pc := if c = true then s.pc else s.pc + 2 } := by
  cases c <;> rfl

/-- Settles O58: both instructions are `skipIf` of the flag of the key in the low nibble of `Vx`. -/
theorem skipsOnKey : Obligations.SkipsOnKey := by
  intro x k s hk
  have hlow : lowNibble (s.reg x) = k := BitVec.eq_of_toNat_eq (by rw [toNat_lowNibble, hk])
  rw [exec_skp, exec_sknp, hlow]
  exact ⟨skipIf_eq (s.keyDown k) s, skipIf_not (s.keyDown k) s⟩

/-! ## The return-address stack -/

theorem sp_ne_full {s : State} (h : s.sp.toNat < 15) : s.sp ≠ 15 := fun e => absurd h (by rw [e]; decide)

theorem exec_call_of_room (nnn : Addr) {s : State} (h : s.sp.toNat < 15) :
    exec (.call nnn) s = .next ((s.push s.pc).setPc (addrValue nnn)) :=
  execCall_of_room (sp_ne_full h)

/-- Settles O37: below the limit `SP` is the number of the entry that `push` writes. -/
theorem callPushesReturnAddressAndJumps : Obligations.CallPushesReturnAddressAndJumps := by
  intro nnn s hsp
  have hmod : s.sp.toNat % 16 = s.sp.toNat := Nat.mod_eq_of_lt (by omega)
  exact ⟨_, exec_call_of_room nnn hsp, toNat_addrValue nnn, toNat_incr (by omega),
    fun k hk => (getElem_stack_push s s.pc hk).trans (by rw [hmod]), rfl⟩

/-- Settles O38: `popPc` decrements `SP` first and reads the entry at the new value. -/
theorem returnPopsTheReturnAddress : Obligations.ReturnPopsTheReturnAddress :=
  fun _ s h0 _ => ⟨s.popPc, execRet_of_entry h0, toNat_decr h0, stackAt_eq_getElem s (toNat_decr h0) _, rfl⟩

/-- Settles O39: each check comes before the handler's first write. -/
theorem stackLimitsFailWithNothingChanged : Obligations.StackLimitsFailWithNothingChanged :=
  fun _ _ _ => ⟨fun h => ⟨_, execCall_of_full h, rfl⟩, fun h => ⟨_, execRet_of_empty h, rfl⟩⟩

/-- Settles O40: the `RET` undoes the increment of `SP` and so reads the entry that the `CALL` wrote. -/
theorem callThenReturnRestoresPcAndSp : Obligations.CallThenReturnRestoresPcAndSp := by
  intro nnn a s t u hsp ht husp hustack
  obtain rfl := Host.Outcome.next.inj (ht.symm.trans (exec_call_of_room nnn hsp))
  have hback : u.sp - 1 = s.sp := by rw [husp]; exact BitVec.add_sub_cancel s.sp 1
  have hne : u.sp ≠ 0 := by
    intro h0
    have := toNat_incr (p := s.sp) (by omega)
    rw [← show u.sp = s.sp + 1 from husp, h0] at this
    exact absurd this.symm (Nat.succ_ne_zero _)
  refine ⟨u.popPc, execRet_of_entry hne, ?_, hback⟩
  rw [State.popPc_pc, hback, State.stackAt_congr hustack, stackAt_eq_getElem _ rfl (by omega)]
  exact (getElem_stack_push s s.pc _).trans (if_pos (Nat.mod_eq_of_lt (by omega)).symm)

end Sys2Proof.Machine
end

section
/-! Proofs about arithmetic and logic (spec/42_alu.md): the operations on two registers, the shifts, the random byte. -/

namespace Sys2Proof.Machine

open Claim

/-! ## What each instruction answers -/

section
variable (x y : Nibble) (s : State)

theorem exec_orReg : exec (.orReg x y) s = .next (s.setReg x (s.reg x ||| s.reg y)) := rfl

theorem exec_andReg : exec (.andReg x y) s = .next (s.setReg x (s.reg x &&& s.reg y)) := rfl

theorem exec_xorReg : exec (.xorReg x y) s = .next (s.setReg x (s.reg x ^^^ s.reg y)) := rfl

theorem exec_addReg : exec (.addReg x y) s =
    .next (s.setFlagThenReg (carryOut (s.reg x) (s.reg y)) x (s.reg x + s.reg y)) := rfl

theorem exec_subReg : exec (.subReg x y) s =
    .next (s.setFlagThenReg (notBorrow (s.reg x) (s.reg y)) x (s.reg x - s.reg y)) := rfl

theorem exec_subnReg : exec (.subnReg x y) s =
    .next (s.setFlagThenReg (notBorrow (s.reg y) (s.reg x)) x (s.reg y - s.reg x)) := rfl

theorem exec_shr : exec (.shr x y) s = .next (s.setFlagThenReg (shiftedOutRight (s.reg x)) x (s.reg x >>> 1)) := rfl

theorem exec_shl : exec (.shl x y) s = .next (s.setFlagThenReg (shiftedOutLeft (s.reg x)) x (s.reg x <<< 1)) := rfl

theorem exec_rnd (nn : Byte) : exec (.rnd x nn) s = .next (s.rngNext.2.setReg x (Config.rngByte s.draws &&& nn)) := rfl

end

/-! ## Flags and results as numbers -/

theorem flagOf_decide (p : Prop) [Decidable p] : flagOf (decide p) = if p then 1 else 0 := by
  by_cases h : p <;> simp [flagOf, h]

theorem carryOut_eq (a b : Byte) : carryOut a b = if a.toNat + b.toNat > 255 then 1 else 0 := flagOf_decide _

theorem notBorrow_eq (a b : Byte) : notBorrow a b = if a.toNat ≥ b.toNat then 1 else 0 := flagOf_decide _

theorem toNat_sub_byte (a b : Byte) : (a - b).toNat = (a.toNat + 256 - b.toNat) % 256 := by
  have := b.isLt
  rw [BitVec.toNat_sub]
  omega

theorem toNat_shiftRight_one (a : Byte) : (a >>> 1).toNat = a.toNat / 2 := by
  rw [BitVec.toNat_ushiftRight, Nat.shiftRight_one]

theorem toNat_shiftLeft_one (a : Byte) : (a <<< 1).toNat = a.toNat * 2 % 256 := by
  rw [BitVec.toNat_shiftLeft, Nat.shiftLeft_eq]

theorem toNat_and_one (a : Byte) : (a &&& 1).toNat = a.toNat % 2 := by
  rw [BitVec.toNat_and, show (1 : Byte).toNat = 1 from rfl, Nat.and_one_is_mod]

theorem toNat_shiftedOutLeft (a : Byte) : (shiftedOutLeft a).toNat = a.toNat / 128 := by
  have := a.isLt
  rw [shiftedOutLeft, toNat_and_one, BitVec.toNat_ushiftRight, Nat.shiftRight_eq_div_pow]
  omega

/-! ## The frame of a flag and a result -/

/-- An instruction that writes a flag and then its result is known by the two values. -/
theorem next_setFlagThenReg_spec {i : Instr} {s : State} {x : Nibble} {f b : Byte}
    (h : exec i s = .next (s.setFlagThenReg f x b)) :
    ∃ t, exec i s = .next t ∧ ChangesRegAndFlag x s t ∧ t.reg x = b ∧ (x ≠ 0xF → t.reg 0xF = f) := by
  refine ⟨_, h, ⟨fun r hx hF => State.reg_setFlagThenReg_ne s f b (not_or.2 ⟨hx, hF⟩), rfl⟩,
    State.reg_setReg_same _ x b, fun hx => ?_⟩
  rw [reg_setFlagThenReg, if_neg hx.symm]
  exact if_pos rfl

/-! ## The obligations -/

/-- Settles O44: each instruction writes one register, and bit `k` of the result is by definition that of the
operands. -/
theorem logicIsBitwise : Obligations.LogicIsBitwise := by
  intro x y s
  have hbits {i : Instr} {b : Byte} {p : Nat → Bool} (h : exec i s = .next (s.setReg x b))
      (hb : ∀ k, b.getLsbD k = p k) :
      ∃ t, exec i s = .next t ∧ ChangesReg x s t ∧ ∀ k, (t.reg x).getLsbD k = p k := by
    obtain ⟨t, ht, hval, hframe⟩ := next_setReg_spec h
    exact ⟨t, ht, hframe, fun k => hval ▸ hb k⟩
  exact ⟨hbits (exec_orReg x y s) fun _ => BitVec.getLsbD_or, hbits (exec_andReg x y s) fun _ => BitVec.getLsbD_and,
    hbits (exec_xorReg x y s) fun _ => BitVec.getLsbD_xor⟩

/-- Settles O45: the flag is written first, so with `X = F` the result stands. -/
theorem addRegistersSetsCarry : Obligations.AddRegistersSetsCarry := by
  intro x y s
  obtain ⟨t, ht, hframe, hval, hflag⟩ := next_setFlagThenReg_spec (exec_addReg x y s)
  exact ⟨t, ht, hframe, hval ▸ BitVec.toNat_add (s.reg x) (s.reg y), fun hx => (hflag hx).trans (carryOut_eq _ _)⟩

/-- Settles O46: `SUBN` is `SUB` with the operands of the difference and of the comparison exchanged. -/
theorem subtractSetsNotBorrow : Obligations.SubtractSetsNotBorrow := by
  intro x y s
  have hsub {i : Instr} {a b : Byte} (h : exec i s = .next (s.setFlagThenReg (notBorrow a b) x (a - b))) :
      ∃ t, exec i s = .next t ∧ ChangesRegAndFlag x s t ∧ (t.reg x).toNat = (a.toNat + 256 - b.toNat) % 256 ∧
        (x ≠ 0xF → t.reg 0xF = if a.toNat ≥ b.toNat then 1 else 0) := by
    obtain ⟨t, ht, hframe, hval, hflag⟩ := next_setFlagThenReg_spec h
    exact ⟨t, ht, hframe, hval ▸ toNat_sub_byte a b, fun hx => (hflag hx).trans (notBorrow_eq a b)⟩
  exact ⟨hsub (exec_subReg x y s), hsub (exec_subnReg x y s)⟩

/-- Settles O47: the shift and the bit shifted out are the quotient and the remainder of `Vx` at the shifted end. -/
theorem shiftsReportTheBitShiftedOut : Obligations.ShiftsReportTheBitShiftedOut := by
  intro x y s
  obtain ⟨t, ht, hframe, hval, hflag⟩ := next_setFlagThenReg_spec (exec_shr x y s)
  obtain ⟨u, hu, uframe, uval, uflag⟩ := next_setFlagThenReg_spec (exec_shl x y s)
  exact ⟨⟨t, ht, hframe, hval ▸ toNat_shiftRight_one (s.reg x), fun hx => hflag hx ▸ toNat_and_one (s.reg x)⟩,
    ⟨u, hu, uframe, uval ▸ toNat_shiftLeft_one (s.reg x), fun hx => uflag hx ▸ toNat_shiftedOutLeft (s.reg x)⟩⟩

/-- Settles O48: the draw changes the counter alone, and the register write follows it. -/
theorem randomByteIsMaskedAndDrawnOnce : Obligations.RandomByteIsMaskedAndDrawnOnce :=
  fun x nn s => ⟨_, exec_rnd x s nn, State.reg_setReg_same _ x _, rfl,
    fun _ hr => State.reg_setReg_ne s.rngNext.2 _ hr, rfl⟩

end Sys2Proof.Machine
end

section
/-! Proofs about the address register and memory (spec/43_index_memory.md, spec/20_memory.md). -/

namespace Sys2Proof.Machine

open Claim

/-! ## The address register -/

theorem exec_addI (x : Nibble) (s : State) : exec (.addI x) s = .next (s.setI (s.i + wordValue (s.reg x))) := rfl

theorem exec_ldF (x : Nibble) (s : State) : exec (.ldF x) s = .next (s.setI (glyphAddr (lowNibble (s.reg x)))) := rfl

/-- Settles O49: a 16-bit sum, and the glyph address of the low nibble; the only update of both is `setI`. -/
theorem addIndexAndFontAddress : Obligations.AddIndexAndFontAddress := by
  intro x s
  refine ⟨⟨_, exec_addI x s, ?_, rfl⟩, ⟨_, exec_ldF x s, ?_, rfl⟩⟩
  · rw [State.setI_i, BitVec.toNat_add, toNat_wordValue]
  · rw [State.setI_i, toNat_glyphAddr, toNat_lowNibble]

/-! ## Stores -/

theorem exec_ldB (x : Nibble) (s : State) : exec (.ldB x) s = storeAtI (decimalDigits (s.reg x)) s := rfl

theorem exec_ldMemVx (x : Nibble) (s : State) : exec (.ldMemVx x) s = storeAtI (regsUpTo s x) s := rfl

theorem exec_ldVxMem (x : Nibble) (s : State) :
    exec (.ldVxMem x) s =
      withBytesAtI (countValue x + 1) s (.next (s.loadRegs 0 (bytesAtI s (countValue x + 1)))) := rfl

/-- A store that fits: byte `k` of what is stored is read at `I + k`, every other byte as before, and nothing but memory
has changed. -/
theorem storeAtI_spec {s : State} (hs : MemoryCanonical s) {bs : List Byte} (hfit : s.i.toNat + bs.length ≤ 4096) :
    ∃ t, storeAtI bs s = .next t ∧ (∀ k, k < bs.length → t.mem.read (effAddr s k) = bs.getD k 0) ∧
      (∀ a, (a < effAddr s 0 ∨ s.i.toNat + bs.length ≤ a) → t.mem.read a = s.mem.read a) ∧
      MemoryCanonical t ∧ t = { s with mem := t.mem } := by
  refine ⟨_, storeAtI_of_inRange hfit, fun k hk => ?_, fun a ha => read_writeBytes_outside hs ha,
    Memory.wf_writeBytes hs hfit, rfl⟩
  rw [State.setMem_mem, Memory.read_writeBytes hs.1, effAddr_eq, if_pos (by omega), Nat.add_sub_cancel_left]

/-- Settles O50: the three digits of a byte, each below 256. -/
theorem storeDecimalDigits : Obligations.StoreDecimalDigits := by
  intro x s hs hi
  have hb := (s.reg x).isLt
  obtain ⟨t, ht, hread, hkeep, hwf, hframe⟩ :=
    storeAtI_spec hs (bs := decimalDigits (s.reg x)) (by rw [length_decimalDigits]; omega)
  refine ⟨t, ht, ?_, ?_, ?_, fun a ha => hkeep a ?_, hwf, hframe⟩
  · rw [hread 0 (by simp)]
    exact Nat.mod_eq_of_lt (by omega)
  · rw [hread 1 (by simp)]
    exact Nat.mod_eq_of_lt (by omega)
  · rw [hread 2 (by simp)]
    exact Nat.mod_eq_of_lt (by omega)
  · rw [length_decimalDigits]
    simp only [effAddr_eq] at ha ⊢
    omega

/-- Settles O51: byte `r` of what is stored is register `r`. -/
theorem storeRegistersUpToVx : Obligations.StoreRegistersUpToVx := by
  intro x s hs hi
  obtain ⟨t, ht, hread, hkeep, hwf, hframe⟩ :=
    storeAtI_spec hs (bs := regsUpTo s x) (by rw [length_regsUpTo]; omega)
  refine ⟨t, ht, fun r hr => ?_, fun a ha => hkeep a ?_, hwf, hframe⟩
  · rw [hread r.toNat (by rw [length_regsUpTo]; omega), getD_regsUpTo s x r hr]
  · rw [length_regsUpTo]
    simp only [effAddr_eq] at ha ⊢
    omega

/-! ## The block load -/

/-- Settles O52: the bytes at `I` are loaded into the registers from 0 up. -/
theorem loadRegistersUpToVx : Obligations.LoadRegistersUpToVx := by
  intro x s hi
  exact ⟨_, (exec_ldVxMem x s).trans (withBytesAtI_of_inRange (.inr hi)), fun _ => reg_loadRegs_bytesAtI s,
    loadRegs_eq s 0 _⟩

/-- Settles O53: the load reads at `I + j` the byte that the store wrote there, which is register `j`. -/
theorem blockStoreThenLoadRestoresRegisters : Obligations.BlockStoreThenLoadRestoresRegisters := by
  intro x s t u hs hi ht hmem hui
  obtain ⟨t', ht', hstored, -⟩ := storeRegistersUpToVx x s hs hi
  obtain rfl := Host.Outcome.next.inj (ht.symm.trans ht')
  obtain ⟨r, hr, hloaded, -⟩ := loadRegistersUpToVx x u (hui ▸ hi)
  refine ⟨r, hr, fun j hj => ?_⟩
  rw [hloaded j, if_pos hj, hmem, effAddr_eq, hui]
  exact hstored j hj

/-- Settles O34: the fetch at `I` reads the first two bytes stored, `V0` and `V1`. -/
theorem storedBytesAreFetchedNext : Obligations.StoredBytesAreFetchedNext := by
  intro s x hs hx hi
  obtain ⟨t, ht, hstored, -⟩ := storeRegistersUpToVx x s hs hi
  have h0 : t.mem.read s.i.toNat = s.reg 0 := hstored 0 (Nat.zero_le _)
  have h1 : t.mem.read (s.i.toNat + 1) = s.reg 1 := hstored 1 hx
  exact ⟨t, ht, congrArg₂ wordOfBytes h0 h1⟩

/-! ## Accesses beyond memory (R45) -/

/-- An access beyond memory is the instruction's failure, taken on the state as it was. -/
theorem failsWith_of_failure {i : Instr} {s : State} {k : Failure} (h : failure i s = some k) :
    ∃ t, exec i s = .next t ∧ FailsWith k s t :=
  ⟨_, exec_of_failure h, rfl⟩

/-- Settles O54: in each form the last byte is at or beyond 4096 exactly where `failure` says. -/
theorem accessBeyondMemoryFailsPrecisely : Obligations.AccessBeyondMemoryFailsPrecisely := by
  intro x y n s
  refine ⟨fun h => failsWith_of_failure (if_pos ?_), fun h => failsWith_of_failure (if_pos ?_),
    fun h => failsWith_of_failure (if_pos ?_), fun hn h => failsWith_of_failure (if_pos ?_)⟩
  · omega
  · omega
  · omega
  · omega

end Sys2Proof.Machine
end

section
/-! Proofs about the key wait's instruction (spec/45_keypad_timers.md). -/

namespace Sys2Proof.Machine

open Claim

/-- Settles O59: the key that is pressed with no lower one pressed is what `lowestKey` finds. -/
theorem keyWaitTakesLowestKeyOrSuspends : Obligations.KeyWaitTakesLowestKeyOrSuspends := by
  intro x s
  refine ⟨fun k hk hlow => ?_, fun hnone => exec_ldVxK_of_none x ((lowestKey_eq_none_iff s).2 hnone)⟩
  exact ⟨_, exec_ldVxK_of_key x ((lowestKey_eq_some_iff s k).2 ⟨hk, hlow⟩),
    (congrArg BitVec.toNat (State.reg_setReg_same s x _)).trans (toNat_keyByte k),
    fun r hr => State.reg_setReg_ne s _ hr, rfl⟩

end Sys2Proof.Machine
end

section
/-! Proofs about the sprite draw (spec/44_display.md R151), from its closed form in Laws/Framebuffer.lean. -/

namespace Sys2Proof.Machine

open Claim

/-! ## The pixels a draw inverts -/

/-- The positions drawn are those under a sprite bit 1, column and row taken with wraparound. -/
theorem spriteOver_iff_mem_drwPixels (s : State) (x y n : Nibble) {px py : Nat} (hx : px < 64) (hy : py < 32) :
    spriteOver s x y n px py ↔ ∃ p ∈ drwPixels x y n s, SamePixel p (px, py) := by
  have hlen : (bytesAtI s n.toNat).length = n.toNat := length_bytesAtI s n.toNat
  constructor
  · rintro ⟨r, c, hr, hc, hbit, hpx, hpy⟩
    refine ⟨((s.reg x).toNat % 64 + c, (s.reg y).toNat % 32 + r), ?_, ?_, ?_⟩
    · refine (mem_spritePixels _ _ _ _).2 ⟨r, c, by omega, hc, ?_, rfl⟩
      rwa [getD_bytesAtI s _ _ hr]
    · exact hpx.symm.trans (Nat.mod_eq_of_lt hx).symm
    · exact hpy.symm.trans (Nat.mod_eq_of_lt hy).symm
  · rintro ⟨p, hp, hsx, hsy⟩
    obtain ⟨r, c, hr, hc, hbit, rfl⟩ := (mem_spritePixels _ _ _ _).1 hp
    rw [hlen] at hr
    rw [getD_bytesAtI s _ _ hr] at hbit
    exact ⟨r, c, hr, hc, hbit, (hsx.trans (Nat.mod_eq_of_lt hx)).symm, (hsy.trans (Nat.mod_eq_of_lt hy)).symm⟩

theorem samePixel_mod (p : Nat × Nat) : SamePixel p (p.1 % 64, p.2 % 32) :=
  ⟨(Nat.mod_mod p.1 64).symm, (Nat.mod_mod p.2 32).symm⟩

/-- What the draw makes of the framebuffer and of the collision flag. -/
def drwDrawing (x y n : Nibble) (s : State) : Drawing := invertAll (drwPixels x y n s) ⟨s.fb, false⟩

section
variable (s : State) (x y n : Nibble)

theorem exec_drw_of_inRange (h : n = 0 ∨ s.i.toNat + n.toNat - 1 < 4096) :
    exec (.drw x y n) s =
      .next ((s.setFb (drwDrawing x y n s).fb).setFlag (flagOf (drwDrawing x y n s).collision)) :=
  execDrw_of_inRange h

theorem drawn_of_spriteOver {px py : Nat} (hx : px < 64) (hy : py < 32) (h : spriteOver s x y n px py) :
    (drwDrawing x y n s).fb[py][px] = !s.fb[py][px] := by
  rw [← pixel_eq_getElem _ hx hy, ← pixel_eq_getElem _ hx hy]
  exact pixel_invertAll_of_mem (drwPixels_apart x y n s) ⟨s.fb, false⟩ (q := (px, py))
    ((spriteOver_iff_mem_drwPixels s x y n hx hy).1 h)

theorem drawn_of_not_spriteOver {px py : Nat} (hx : px < 64) (hy : py < 32) (h : ¬ spriteOver s x y n px py) :
    (drwDrawing x y n s).fb[py][px] = s.fb[py][px] := by
  rw [← pixel_eq_getElem _ hx hy, ← pixel_eq_getElem _ hx hy]
  exact pixel_invertAll_of_not_mem ⟨s.fb, false⟩ (q := (px, py)) fun p hp hsame =>
    h ((spriteOver_iff_mem_drwPixels s x y n hx hy).2 ⟨p, hp, hsame⟩)

/-- A collision is a pixel that is on with a sprite bit 1 over it. -/
theorem collision_drwDrawing_iff :
    (drwDrawing x y n s).collision = true ↔
      ∃ py px, ∃ (hy : py < 32) (hx : px < 64), s.fb[py][px] = true ∧ spriteOver s x y n px py := by
  rw [drwDrawing, collision_invertAll (drwPixels_apart x y n s)]
  constructor
  · rintro (hfalse | ⟨p, hp, hon⟩)
    · exact absurd hfalse Bool.false_ne_true
    · have hx : p.1 % 64 < 64 := Nat.mod_lt _ (by decide)
      have hy : p.2 % 32 < 32 := Nat.mod_lt _ (by decide)
      refine ⟨p.2 % 32, p.1 % 64, hy, hx, ?_, ?_⟩
      · rw [← pixel_eq_getElem _ hx hy]
        exact (pixel_congr s.fb (samePixel_mod p)).symm.trans hon
      · exact (spriteOver_iff_mem_drwPixels s x y n hx hy).2 ⟨p, hp, samePixel_mod p⟩
  · rintro ⟨py, px, hy, hx, hon, hover⟩
    obtain ⟨p, hp, hsame⟩ := (spriteOver_iff_mem_drwPixels s x y n hx hy).1 hover
    refine .inr ⟨p, hp, ?_⟩
    rw [← pixel_eq_getElem _ hx hy] at hon
    exact (pixel_congr s.fb hsame).trans hon

end

/-! ## The obligations -/

theorem flagOf_eq_zero_or_one (c : Bool) : flagOf c = 0 ∨ flagOf c = 1 := by cases c <;> decide

/-- The two clauses about a pixel: it is inverted exactly where the first holds, and kept exactly where it does not. -/
theorem inverted_iff_and_kept_iff {a b : Bool} {p : Prop} (hinv : p → a = !b) (hkeep : ¬ p → a = b) :
    (a = !b ↔ p) ∧ (a = b ↔ ¬ p) := by
  by_cases hp : p
  · simp [hp, hinv hp]
  · simp [hp, hkeep hp]

/-- Settles O56: the drawing inverts each position once, no two of which are the same pixel. -/
theorem drawInvertsExactlyTheSpritePixels : Obligations.DrawInvertsExactlyTheSpritePixels := by
  intro x y n s h
  refine ⟨_, exec_drw_of_inRange s x y n h, fun py px hy hx => ?_, ?_, ?_,
    fun r hr => State.reg_setFlag_ne _ _ hr, rfl⟩
  · exact inverted_iff_and_kept_iff (drawn_of_spriteOver s x y n hx hy) (drawn_of_not_spriteOver s x y n hx hy)
  · rw [← collision_drwDrawing_iff, ← flagOf_eq_one_iff, State.setFlag_eq]
    exact iff_of_eq (congrArg (· = 1) (State.reg_setReg_same _ flagReg _))
  · rw [State.setFlag_eq]
    exact (State.reg_setReg_same _ flagReg _).symm ▸ flagOf_eq_zero_or_one _

theorem spriteOver_congr {s t : State} {x y : Nibble} (hmem : t.mem = s.mem) (hi : t.i = s.i)
    (hx : t.reg x = s.reg x) (hy : t.reg y = s.reg y) (n : Nibble) (px py : Nat) :
    spriteOver t x y n px py ↔ spriteOver s x y n px py := by
  simp only [spriteOver, hmem, hi, hx, hy]

/-- Settles O57: the first draw leaves memory, `I` and both coordinates, so the second inverts the same pixels back; it
collides where the first turned a pixel on. -/
theorem drawingTwiceRestoresTheFramebuffer : Obligations.DrawingTwiceRestoresTheFramebuffer := by
  intro x y n s t h hxF hyF ht
  obtain ⟨t', ht', hfirst, -, -, hregs, hframe⟩ := drawInvertsExactlyTheSpritePixels x y n s h
  obtain rfl := Host.Outcome.next.inj (ht.symm.trans ht')
  have hmem : t.mem = s.mem := by rw [hframe]
  have hi : t.i = s.i := by rw [hframe]
  have hover := spriteOver_congr hmem hi (hregs x hxF) (hregs y hyF) n
  obtain ⟨u, hu, hsecond, hflag, -⟩ := drawInvertsExactlyTheSpritePixels x y n t (hi ▸ h)
  refine ⟨u, hu, frame_ext fun py px hy hx => ?_, hflag.trans ?_⟩
  · obtain ⟨hinv, hkeep⟩ := hfirst py px hy hx
    obtain ⟨uinv, ukeep⟩ := hsecond py px hy hx
    by_cases hp : spriteOver s x y n px py
    · rw [uinv.2 ((hover px py).2 hp), hinv.2 hp, Bool.not_not]
    · rw [ukeep.2 (fun ho => hp ((hover px py).1 ho)), hkeep.2 hp]
  · refine exists_congr fun py => exists_congr fun px => exists_congr fun hy => exists_congr fun hx => ?_
    rw [hover, ← (hfirst py px hy hx).1]
    cases s.fb[py][px] <;> cases t.fb[py][px] <;> decide

end Sys2Proof.Machine
end
